-- ==== Sys2Proof/Word.lean ====
section
/-! DEFINITION. The bit widths of the block's values: 00_scope.md R7, R9, R10 (every value is unsigned). -/

namespace Sys2Proof

/-- A byte: 8 bits (R9). -/
abbrev Byte := BitVec 8

/-- A command or response word: `WORD_W` = 32 bits (R7, R9). -/
abbrev Word := BitVec 32

/-- The contents of one channel register: `CH_W` = 11 bits, so 0..2047 (R7, R20). -/
abbrev Chan := BitVec 11

/-- A frame-buffer address: 6 bits, 0x00 to 0x3F (20_memory.md R40). -/
abbrev Addr := BitVec 6

end Sys2Proof
end

