-- ==== Sys2Proof/Syntax.lean ====
section
/-! DEFINITION. The command set: one constructor per row of spec/opcode_table.json (30_encoding.md R64).
Each operand is the plain unsigned value of its bit field (R63), at the field's own width. -/

namespace Sys2Proof

inductive Instr where
  /-- INIT: construct the decoder instance again (43_host_control.md R151). -/
  | init
  /-- WRBUF IDX, DATA: write one byte of the frame buffer (43_host_control.md R152). -/
  | wrbuf (idx : Addr) (data : Byte)
  /-- CRC START, LEN: the checksum of a range of the frame buffer (40_crc_engine.md R85). -/
  | crc (start : Addr) (len : BitVec 7)
  /-- DECODE TLEN, NOWV, NOW: validate the frame and store its channels (41_frame_decoder.md R100). -/
  | decode (tlen : Byte) (nowv : Bool) (now : Word)
  /-- GETCH INDEX: read one channel register (42_channel_unpack.md R134). -/
  | getch (index : Byte)
  /-- GETALL: read all channel registers (42_channel_unpack.md R135). -/
  | getall
  /-- GETTS: read the last-update timestamp (43_host_control.md R153). -/
  | getts
  /-- GETBAUD: read the baud constant (43_host_control.md R154). -/
  | getbaud
  /-- An illegal command (30_encoding.md R65, 43_host_control.md R155): its first word, and its second
  word where the first one has opcode 0x4 and so takes one (R60). It keeps the raw words so that an
  illegal command has an encoding too (log 6). -/
  | illegal (first : Word) (second : Option Word)
  deriving DecidableEq, Repr

/-- The row of the opcode table an instruction belongs to. -/
def Instr.mnemonic : Instr → String
  | .init => "INIT"
  | .wrbuf _ _ => "WRBUF"
  | .crc _ _ => "CRC"
  | .decode _ _ _ => "DECODE"
  | .getch _ => "GETCH"
  | .getall => "GETALL"
  | .getts => "GETTS"
  | .getbaud => "GETBAUD"
  | .illegal _ _ => "ILLEGAL"

end Sys2Proof
end

