-- ==== Sys2Proof/Decode.lean ====
section
/-! DEFINITION. Decoding and encoding of command words: 30_encoding.md R60 to R65. A word is a whole
32-bit word; no byte order applies to it (20_memory.md R43; log 12). -/

namespace Sys2Proof

/-- `w[31:28]`, the opcode field of a first word (R61). -/
def opc (w : Word) : BitVec 4 := w.extractLsb' 28 4

/-- The length of a command is told from the opcode alone: 0x4 means two words, every other value one,
also when the first word is illegal (R60). -/
def isTwoWord (w : Word) : Bool := opc w == 0x4#4

/-- One row of the opcode map: a first word `w` selects it when `w & mask = pattern` (R64). -/
structure OpcodeRow where
  mnemonic : String
  mask : Word
  pattern : Word
  deriving DecidableEq, Repr

/-- The opcode map's "selected when" column (R64). The ILLEGAL row is the fallback and has no line here. -/
def opcodeMap : List OpcodeRow :=
  [ ⟨"INIT",    0xFFFFFFFF#32, 0x10000000#32⟩,
    ⟨"WRBUF",   0xFFFFC000#32, 0x20000000#32⟩,
    ⟨"CRC",     0xFFFF80C0#32, 0x30000000#32⟩,
    ⟨"DECODE",  0xFFFFFE00#32, 0x40000000#32⟩,
    ⟨"GETCH",   0xFFFFFF00#32, 0x50000000#32⟩,
    ⟨"GETALL",  0xFFFFFFFF#32, 0x60000000#32⟩,
    ⟨"GETTS",   0xFFFFFFFF#32, 0x70000000#32⟩,
    ⟨"GETBAUD", 0xFFFFFFFF#32, 0x80000000#32⟩ ]

/-- Whether a first word selects a row of the opcode map. -/
def OpcodeRow.selects (r : OpcodeRow) (w : Word) : Bool := (w &&& r.mask) == r.pattern

/-- A one-word command (R62 formats Z, W, C and G; the opcode cases of 43_host_control.md R150): each
format checks its must-be-zero bits first, and everything else is illegal (R65). -/
def decodeOneWord (w : Word) : Instr :=
  if opc w = 0x1#4 then
    if w.extractLsb' 0 28 = 0#28 then .init else .illegal w none
  else if opc w = 0x2#4 then
    if w.extractLsb' 14 14 = 0#14 then .wrbuf (w.extractLsb' 8 6) (w.extractLsb' 0 8)
    else .illegal w none
  else if opc w = 0x3#4 then
    if w.extractLsb' 15 13 = 0#13 ∧ w.extractLsb' 6 2 = 0#2 then
      .crc (w.extractLsb' 0 6) (w.extractLsb' 8 7)
    else .illegal w none
  else if opc w = 0x5#4 then
    if w.extractLsb' 8 20 = 0#20 then .getch (w.extractLsb' 0 8) else .illegal w none
  else if opc w = 0x6#4 then
    if w.extractLsb' 0 28 = 0#28 then .getall else .illegal w none
  else if opc w = 0x7#4 then
    if w.extractLsb' 0 28 = 0#28 then .getts else .illegal w none
  else if opc w = 0x8#4 then
    if w.extractLsb' 0 28 = 0#28 then .getbaud else .illegal w none
  else .illegal w none

/-- A two-word command (R62 format D): the first word's must-be-zero bits `w0[27:9]` are checked first;
the second word is `NOW`, whole, whatever its bits (R60, 43_host_control.md R150). -/
def decodeTwoWords (w0 w1 : Word) : Instr :=
  if w0.extractLsb' 9 19 = 0#19 then .decode (w0.extractLsb' 0 8) (w0.getLsbD 8) w1
  else .illegal w0 (some w1)

/-- Why a list of words holds no whole command. -/
inductive DecodeError where
  /-- No word has arrived. -/
  | noWord
  /-- A first word with opcode 0x4 has arrived and its second word has not (R60). -/
  | secondWordMissing
  deriving DecidableEq, Repr

/-- What the decoder reads from a stream of words: its first command and the words after it, or, by name,
why there is none. -/
inductive Decoded where
  | command (i : Instr) (rest : List Word)
  | rejected (e : DecodeError)
  deriving DecidableEq, Repr

/-- Decode the first command of a stream of words. -/
def decode : List Word → Decoded
  | [] => .rejected .noWord
  | w :: rest =>
    if isTwoWord w then
      match rest with
      | [] => .rejected .secondWordMissing
      | w1 :: rest' => .command (decodeTwoWords w w1) rest'
    else .command (decodeOneWord w) rest

/-- A field's value at the place of a word whose lowest bit is `lo`, every other bit 0. -/
def field {n : Nat} (v : BitVec n) (lo : Nat) : Word := v.setWidth 32 <<< lo

/-- The words of an instruction: the formats of R62, field by field from bit 31 down, must-be-zero bits 0. -/
def encode : Instr → List Word
  | .init => [field 0x1#4 28]
  | .wrbuf idx data => [field 0x2#4 28 ||| field idx 8 ||| field data 0]
  | .crc start len => [field 0x3#4 28 ||| field len 8 ||| field start 0]
  | .decode tlen nowv now => [field 0x4#4 28 ||| field (BitVec.ofBool nowv) 8 ||| field tlen 0, now]
  | .getch index => [field 0x5#4 28 ||| field index 0]
  | .getall => [field 0x6#4 28]
  | .getts => [field 0x7#4 28]
  | .getbaud => [field 0x8#4 28]
  | .illegal first second => first :: second.toList

/-- The word numbered `k` of an instruction whose bits are the low `nbits` bits of `w` (bit 0 the least
significant bit of the first word), every bit above them 0. -/
def tableWord (nbits w k : Nat) : Word := BitVec.ofNat 32 ((w % 2 ^ nbits) >>> (32 * k))

/-- The instruction the decoder reads from bits numbered as spec/opcode_table.json numbers them: the
first word is bits 31..0, DECODE's second word bits 63..32. -/
def decodeTableWord (nbits w : Nat) : Option Instr :=
  match decode [tableWord nbits w 0, tableWord nbits w 1] with
  | .command i _ => some i
  | .rejected _ => none

end Sys2Proof
end

