-- ==== Sys2Proof/Config.lean ====
section
/-! DEFINITION. The implementation parameters of 00_scope.md R7 and R8, each at its normative value.
They are fixed constants of the datapath, not registers (10_state.md R29). `FC_ADDR` and
`MIN_FRAME_LENGTH` are the two the spec names as parameters with a normative value
(93_implementation_defined.md I1, I2; log 9). No value is left free: the block has none
(91_not_in_source.md N18). -/

namespace Sys2Proof.Config

/-- `N_CH`, the number of channels. -/
def nCh : Nat := 16

/-- `CH_W`, the bits of a channel. -/
def chW : Nat := 11

/-- `CH_MASK`. -/
def chMask : Nat := 0x7FF

/-- `FC_ADDR`, the only accepted address (41_frame_decoder.md R103). -/
def fcAddr : Byte := 0xC8#8

/-- `MIN_FRAME_LENGTH`, the smallest accepted `frame_length` (41_frame_decoder.md R104). -/
def minFrameLength : Nat := 5

/-- `MAX_FRAME`, the largest accepted total length in bytes. -/
def maxFrame : Nat := 64

/-- `TYPE_RC`, the packed RC channels type. -/
def typeRc : Byte := 0x16#8

/-- `RC_PAYLOAD_LEN`, the bytes of an RC payload (`N_CH * CH_W / 8`, R8). -/
def rcPayloadLen : Nat := 22

/-- `CRC_POLY`, the `x^8` term implicit. -/
def crcPoly : Byte := 0xD5#8

/-- `CRC_INIT`. -/
def crcInit : Byte := 0x00#8

/-- `BAUD`, 420000, informational only (10_state.md R29). -/
def baud : Word := 0x000668A0#32

/-- `FB_SIZE`, the bytes of the frame buffer. -/
def fbSize : Nat := 64

/-- What a frame-buffer byte that no cell lists reads as: the reset value of every byte of `FB`
(10_state.md R30; the spec's decision D17; log 4). -/
def fbReset : Byte := 0x00#8

end Sys2Proof.Config
end

