-- ==== Sys2Proof/Machine/State.lean ====
section
/-! DEFINITION. The machine's state (10_state.md R20 to R34, 70_reset_and_hazards.md R190) and the two
ports. The CRC ROM `T` and `BAUD` are constants that nothing writes (10_state.md R29, R32): they stand in
Machine/Crc.lean and Config. The block has no pc, no flags, no control register and no stored status
(R27, R28, R29, R33, R34). -/

namespace Sys2Proof.Machine

/-- The frame buffer as cells (address, byte), addresses strictly rising, no cell equal to what an
unlisted address reads as (`Config.fbReset`). -/
abbrev Memory := List Host.Cell

/-- What reaches the block from the host, in the order in which it reaches it (log 1). -/
inductive PortInput where
  /-- One word on the command port (30_encoding.md R60). -/
  | word (w : Word)
  /-- Reset is asserted; it may be between DECODE's two words (70_reset_and_hazards.md R190). -/
  | reset
  deriving DecidableEq, Repr

structure State where
  /-- `CH[0..15]` (R20). -/
  ch : Vector Chan 16
  /-- `LAST_TS_VALID` (R24). -/
  lastTsValid : Bool
  /-- `LAST_TS` (R24). -/
  lastTs : Word
  /-- `FB[0..63]` (R30). -/
  fb : Memory
  /-- `PEND` (R31). -/
  pend : Bool
  /-- `PEND_W0` (R31). -/
  pendW0 : Word
  /-- What the host has sent and the block has not yet taken, next first (log 1). -/
  input : List PortInput
  /-- The response words emitted and not yet taken by the host, oldest first (log 2). -/
  respOut : List Word
  deriving DecidableEq, Repr

/-- The block has no exceptions, traps, aborts, halts or fault states (60_exceptions.md R170): no
meaning raises a fault, so the type has no constructor. Safe: nothing is stopped. -/
inductive Fault where
  deriving DecidableEq, Repr

/-- Why an instruction has no meaning. -/
inductive Refusal where
  /-- An arm of `exec` whose instruction has no meaning yet; safe. Every instruction has its meaning,
  so nothing raises it (log 11). -/
  | notModelled (mnemonic : String)
  deriving DecidableEq, Repr

/-- The state right after reset (70_reset_and_hazards.md R190): channels 0, no timestamp, every byte of
`FB` 0x00 (no cell listed), no DECODE first word waiting, and both ports empty. -/
def State.reset : State where
  ch := Vector.replicate 16 0#11
  lastTsValid := false
  lastTs := 0#32
  fb := []
  pend := false
  pendW0 := 0#32
  input := []
  respOut := []

/-- What an instruction's meaning answers. -/
abbrev Result := Host.Outcome State Fault Refusal

end Sys2Proof.Machine
end

