-- ==== Sys2Proof/Machine/Flags.lean ====
section
/-! DEFINITION. The block has no flags and no condition codes: the result of every command is carried in
the status word of its response (10_state.md R28). This file is that word: the codes, the frame types and
their places (30_encoding.md R66). -/

namespace Sys2Proof.Machine

/-- The CODE of a status word (R66, 60_exceptions.md R171). Values 0x8 to 0xF are never produced. -/
inductive Code where
  | ok | valid | addressError | payloadError | unsupportedType | notFound | rangeError | illegalCmd
  deriving DecidableEq, Repr

/-- The FT field of a status word (R66): the sentinel NONE, or RC_CHANNELS_PACKED on VALID. -/
inductive FrameType where
  | none | rcChannelsPacked
  deriving DecidableEq, Repr

/-- CODE's number (R66). -/
def codeBits : Code → BitVec 4
  | .ok => 0x0#4
  | .valid => 0x1#4
  | .addressError => 0x2#4
  | .payloadError => 0x3#4
  | .unsupportedType => 0x4#4
  | .notFound => 0x5#4
  | .rangeError => 0x6#4
  | .illegalCmd => 0x7#4

/-- FT's number (R66). -/
def frameTypeBits : FrameType → BitVec 8
  | .none => 0x00#8
  | .rcChannelsPacked => 0x16#8

/-- The status word: FT in bits 15:8, CODE in bits 3:0, every other bit zero (R66, 00_scope.md R13). -/
def statusWord (c : Code) (ft : FrameType) : Word :=
  0#16 ++ frameTypeBits ft ++ 0#4 ++ codeBits c

end Sys2Proof.Machine
end

