-- ==== Sys2Proof/Machine/Operands.lean ====
section
/-! DEFINITION. The operand forms. Every operand is the unsigned value of its field (30_encoding.md R63);
lengths and indices are computed in unbounded integers (00_scope.md R10), and a value outside what a
command accepts is the command's own matter. -/

namespace Sys2Proof.Machine

/-- `zext_32(v)`: zeros above (00_scope.md R10). -/
def zext32 {n : Nat} (v : BitVec n) : Word := v.setWidth 32

/-- `LAST_TS_VALID` as a number of one bit. -/
def bit1 (b : Bool) : BitVec 1 := BitVec.ofBool b

/-- `START + LEN <= 64`, in unbounded integers (40_crc_engine.md R85). -/
def crcRangeFits (start : Addr) (len : BitVec 7) : Bool :=
  start.toNat + len.toNat ≤ Config.fbSize

/-- `n = min(TLEN, 64)`, the bytes of the frame present in `FB` (41_frame_decoder.md R102). -/
def bytesPresent (tlen : Byte) : Nat := min tlen.toNat Config.maxFrame

/-- The value stored in `LAST_TS`: `(NOWV = 1) ? NOW : 0` (10_state.md R25). -/
def storedTime (nowv : Bool) (now : Word) : Word := if nowv then now else 0#32

end Sys2Proof.Machine
end

