-- ==== Sys2Proof/Machine/Ops.lean ====
section
/-! DEFINITION. The named operations over memory and registers (00_scope.md R12) and the response
primitive (R13). The block has no exception to take and none to return from (60_exceptions.md R170,
R175): every error is a `respond`, so `respond` is the one shared operation that takes their place. -/

namespace Sys2Proof.Machine

/-- The byte a list of cells holds at an address, `Config.fbReset` where none is listed. -/
def readCell : Memory → Nat → Byte
  | [], _ => Config.fbReset
  | (k, v) :: r, a => if k = a then v else readCell r a

/-- A list of cells without an address. -/
def eraseCell : Memory → Nat → Memory
  | [], _ => []
  | (k, x) :: r, a => if k = a then eraseCell r a else (k, x) :: eraseCell r a

/-- A cell put in before the first higher address. -/
def insertCell : Memory → Nat → Byte → Memory
  | [], a, v => [(a, v)]
  | (k, x) :: r, a, v => if a < k then (a, v) :: (k, x) :: r else (k, x) :: insertCell r a v

/-- A list of cells with one byte written, kept in canonical form: a byte equal to what an unlisted
address reads as is not listed. -/
def writeCell (m : Memory) (a : Nat) (v : Byte) : Memory :=
  if v = Config.fbReset then eraseCell m a else insertCell (eraseCell m a) a v

/-- The canonical form above a bound: addresses rise from `lo`, all exist (below 64), and no byte is one
that an unlisted address reads as. -/
def wfFrom : Nat → Memory → Bool
  | _, [] => true
  | lo, (k, v) :: r =>
    decide (lo ≤ k) && decide (k < Config.fbSize) && decide (v ≠ Config.fbReset) && wfFrom (k + 1) r

/-- The canonical form of the frame buffer. -/
def Memory.wf (m : Memory) : Bool := wfFrom 0 m

/-- `FB[a]` (R12). Every 6-bit address names a byte (20_memory.md R40, R44). -/
def readByte (m : Memory) (a : Addr) : Byte := readCell m a.toNat

/-- `FB[a] <- v`, that is `MemWrite(a, 1, v)` (R12). -/
def writeByte (m : Memory) (a : Addr) (v : Byte) : Memory := writeCell m a.toNat v

/-- `MemRead(a, n)`: the bytes `FB[a] .. FB[a+n-1]` (R12). The spec defines it only when `a + n <= 64`,
and no rule calls it otherwise; there the 6-bit address wraps (log 5). -/
def memRead (m : Memory) (a n : Nat) : List Byte :=
  (List.range n).map fun k => readByte m (BitVec.ofNat 6 (a + k))

/-- The response words of a command put on the response port: the status word, then the data words
(R13, 30_encoding.md R66), after every word emitted before (20_memory.md R49). -/
def emit (c : Code) (ft : FrameType) (data : List Word) (s : State) : State :=
  { s with respOut := s.respOut ++ statusWord c ft :: data }

/-- `respond(CODE, FT, d_1, …, d_k)` ends the command (R13). -/
def respond (c : Code) (ft : FrameType) (data : List Word) (s : State) : Result :=
  .next (emit c ft data s)

/-- `CH`, `LAST_TS_VALID` and `LAST_TS` written together: the only form in which the instance state is
written (10_state.md R21, R25). -/
def setInstance (v : Vector Chan 16) (tsValid : Bool) (ts : Word) (s : State) : State :=
  { s with ch := v, lastTsValid := tsValid, lastTs := ts }

/-- `FB[a] <- v` in the state. -/
def storeByte (a : Addr) (v : Byte) (s : State) : State :=
  { s with fb := writeByte s.fb a v }

/-- `PEND <- 1; PEND_W0 <- w` (43_host_control.md R150). -/
def holdFirstWord (w : Word) (s : State) : State := { s with pend := true, pendW0 := w }

/-- `PEND <- 0; PEND_W0 <- 0` (43_host_control.md R150). -/
def releaseFirstWord (s : State) : State := { s with pend := false, pendW0 := 0#32 }

/-- The command port after its head has been taken. -/
def setInput (rest : List PortInput) (s : State) : State := { s with input := rest }

end Sys2Proof.Machine
end

