-- ==== Sys2Proof/Machine/Channels.lean ====
section
/-! DEFINITION. The RC-channel unpacker and the channel accessors: 42_channel_unpack.md R130 to R137. -/

namespace Sys2Proof.Machine

/-- `P = sum over k of (p[k] << (8*k))`, an unbounded number (R130). -/
def packedNat : List Byte → Nat
  | [] => 0
  | b :: r => b.toNat + (packedNat r <<< 8)

/-- `(P >> (11*i)) & 0x7FF`, lane `i` (R130, R137). -/
def lane (P i : Nat) : Chan := BitVec.ofNat 11 ((P >>> (Config.chW * i)) &&& Config.chMask)

/-- `unpack(p[0..21])`: 22 bytes in, 16 values of 11 bits out; total, with no failure outcome (R130, R133,
41_frame_decoder.md R110). -/
def unpack (p : List Byte) : Vector Chan 16 := Vector.ofFn fun i => lane (packedNat p) i.val

/-- `p[k]` as an unbounded number. -/
def byteAt (p : List Byte) (k : Nat) : Nat := (p.getD k 0#8).toNat

/-- The unrolled fixed-offset form (R131): an equal description of `unpack`, not a second datapath. -/
def unpackUnrolled (p : List Byte) : Vector Chan 16 :=
  let b := byteAt p
  let m (x : Nat) : Chan := BitVec.ofNat 11 (x &&& 0x7FF)
  #v[ m (b 0 ||| (b 1 <<< 8)),
      m ((b 1 >>> 3) ||| (b 2 <<< 5)),
      m ((b 2 >>> 6) ||| (b 3 <<< 2) ||| (b 4 <<< 10)),
      m ((b 4 >>> 1) ||| (b 5 <<< 7)),
      m ((b 5 >>> 4) ||| (b 6 <<< 4)),
      m ((b 6 >>> 7) ||| (b 7 <<< 1) ||| (b 8 <<< 9)),
      m ((b 8 >>> 2) ||| (b 9 <<< 6)),
      m ((b 9 >>> 5) ||| (b 10 <<< 3)),
      m (b 11 ||| (b 12 <<< 8)),
      m ((b 12 >>> 3) ||| (b 13 <<< 5)),
      m ((b 13 >>> 6) ||| (b 14 <<< 2) ||| (b 15 <<< 10)),
      m ((b 15 >>> 1) ||| (b 16 <<< 7)),
      m ((b 16 >>> 4) ||| (b 17 <<< 4)),
      m ((b 17 >>> 7) ||| (b 18 <<< 1) ||| (b 19 <<< 9)),
      m ((b 19 >>> 2) ||| (b 20 <<< 6)),
      m ((b 20 >>> 5) ||| (b 21 <<< 3)) ]

/-- The inner loop of the cursor form: `acc | (p[byte + k] << (8*k))` while `8*k < bit + bits`, which is
`(bit + bits + 7) / 8` turns (R132). -/
def gatherField (p : List Byte) (byte bit bits : Nat) : Nat :=
  (List.range ((bit + bits + 7) / 8)).foldl (fun acc k => acc ||| (byteAt p (byte + k) <<< (8 * k))) 0

/-- The cursor form's outer loop: the remaining `n` channels from the cursor `(byte, bit)` (R132). -/
def unpackCursor (p : List Byte) (bits : Nat) : Nat → Nat → Nat → List Nat
  | 0, _, _ => []
  | n + 1, byte, bit =>
    let v := (gatherField p byte bit bits >>> bit) &&& ((1 <<< bits) - 1)
    let byte' := byte + bits / 8
    let bit' := bit + bits % 8
    if bit' ≥ 8 then v :: unpackCursor p bits n (byte' + 1) (bit' - 8)
    else v :: unpackCursor p bits n byte' bit'

/-- The generic bit-cursor form (R132), with `bits = CH_W` for the block: an equal description of
`unpack`, not a second datapath. -/
def unpackGeneric (p : List Byte) (bits : Nat) : List Nat := unpackCursor p bits Config.nCh 0 0

/-- `Q = sum over i of (v[i] << (11*i))`, lanes in index order (R136). -/
def lanesNat : List Chan → Nat
  | [] => 0
  | v :: r => v.toNat + (lanesNat r <<< Config.chW)

/-- `pack(v[0..15])`: the 22 bytes `(Q >> (8*k)) & 0xFF` (R136). No command of the block; it builds frames. -/
def pack (v : Vector Chan 16) : List Byte :=
  (List.range Config.rcPayloadLen).map fun k => BitVec.ofNat 8 ((lanesNat v.toList >>> (8 * k)) &&& 0xFF)

/-- GETCH INDEX (R134): NOT_FOUND when `INDEX >= 16`, else `CH[INDEX]`. No state is written. -/
def execGetch (index : Byte) (s : State) : Result :=
  if h : index.toNat < 16 then respond .ok .none [zext32 (s.ch[index.toNat])] s
  else respond .notFound .none [] s

/-- GETALL (R135): the 16 channel registers of one state, in index order. No state is written. -/
def execGetall (s : State) : Result :=
  respond .ok .none (s.ch.toList.map fun v => zext32 v) s

end Sys2Proof.Machine
end

