-- ==== Sys2Proof/Machine/Frame.lean ====
section
/-! DEFINITION. The frame validator and decoder: 41_frame_decoder.md R100 to R113. -/

namespace Sys2Proof.Machine

/-- Step 2 passes: none of its three failure conditions holds, in integers with no wrap (R104,
00_scope.md R10); `fl` is `FB[1]`. -/
def lengthGood (fl tlen : Nat) : Bool :=
  decide (¬(fl < Config.minFrameLength ∨ tlen > Config.maxFrame ∨ (fl : Int) ≠ (tlen : Int) - 2))

/-- Step 3, the checksum over `FB[2] .. FB[TLEN-2]`, which is `fl - 1` bytes, against `FB[TLEN-1]`
(R105, 40_crc_engine.md R86). -/
def checksumGood (fb : Memory) (fl tlen : Nat) : Bool :=
  crc8 (memRead fb 2 (fl - 1)) == readByte fb (BitVec.ofNat 6 (tlen - 1))

/-- What the validation of a frame finds: the code of the first failing check, or the channels of a valid
RC frame. -/
inductive Verdict where
  | reject (c : Code)
  | accept (v : Vector Chan 16)
  deriving DecidableEq, Repr

/-- Step 4, the dispatch on the type (R106, R108): an RC frame's payload has 22 bytes, and unpacking it
cannot fail (R110). -/
def dispatchType (fb : Memory) (fl : Nat) : Verdict :=
  if readByte fb 2#6 ≠ Config.typeRc then .reject .unsupportedType
  else if (fl : Int) - 2 ≠ (Config.rcPayloadLen : Int) then .reject .payloadError
  else .accept (unpack (memRead fb 3 Config.rcPayloadLen))

/-- The validation sequence of R100, short-circuiting on the first failure (60_exceptions.md R172). Only
bytes below `n = min(TLEN, 64)` are read (R102). -/
def validateFrame (fb : Memory) (tlen : Byte) : Verdict :=
  let n := bytesPresent tlen
  if n < 1 then .reject .payloadError
  else if readByte fb 0#6 ≠ Config.fcAddr then .reject .addressError
  else if n < 2 then .reject .payloadError
  else
    let fl := (readByte fb 1#6).toNat
    if !lengthGood fl tlen.toNat then .reject .payloadError
    else if !checksumGood fb fl tlen.toNat then .reject .payloadError
    else dispatchType fb fl

/-- DECODE TLEN, NOWV, NOW (R100): the frame type is pre-set to NONE (R101); a failure writes nothing
(R109); a valid RC frame writes the channels and the time together (R107); `FB` is never written (R111). -/
def execDecode (tlen : Byte) (nowv : Bool) (now : Word) (s : State) : Result :=
  match validateFrame s.fb tlen with
  | .reject c => respond c .none [] s
  | .accept v => respond .valid .rcChannelsPacked [] (setInstance v nowv (storedTime nowv now) s)

end Sys2Proof.Machine
end

