-- ==== Sys2Proof/Machine/HostControl.lean ====
section
/-! DEFINITION. Instance control, buffer load, queries and illegal words: 43_host_control.md R151 to R155. -/

namespace Sys2Proof.Machine

/-- INIT (R151): the channels and the timestamp to their reset values; `FB` keeps its bytes. -/
def execInit (s : State) : Result :=
  respond .ok .none [] (setInstance (Vector.replicate 16 0#11) false 0#32 s)

/-- WRBUF IDX, DATA (R152): `FB[IDX] <- DATA`. -/
def execWrbuf (idx : Addr) (data : Byte) (s : State) : Result :=
  respond .ok .none [] (storeByte idx data s)

/-- GETTS (R153): the valid bit, then the value. No state is written. -/
def execGetts (s : State) : Result :=
  respond .ok .none [zext32 (bit1 s.lastTsValid), s.lastTs] s

/-- GETBAUD (R154): the baud constant. No state is written. -/
def execGetbaud (s : State) : Result := respond .ok .none [Config.baud] s

/-- An illegal command (R155): ILLEGAL_CMD, and no state is written. -/
def execIllegal (s : State) : Result := respond .illegalCmd .none [] s

end Sys2Proof.Machine
end

