-- ==== Sys2Proof/Machine/Dispatch.lean ====
section
/-! DEFINITION. One arm per instruction: each calls its meaning. -/

namespace Sys2Proof.Machine

def exec (i : Instr) (s : State) : Host.Outcome State Fault Refusal :=
  match i with
  | .init => Sys2Proof.Machine.execInit s
  | .wrbuf idx data => Sys2Proof.Machine.execWrbuf idx data s
  | .crc start len => Sys2Proof.Machine.execCrc start len s
  | .decode tlen nowv now => Sys2Proof.Machine.execDecode tlen nowv now s
  | .getch index => Sys2Proof.Machine.execGetch index s
  | .getall => Sys2Proof.Machine.execGetall s
  | .getts => Sys2Proof.Machine.execGetts s
  | .getbaud => Sys2Proof.Machine.execGetbaud s
  | .illegal _ _ => Sys2Proof.Machine.execIllegal s

end Sys2Proof.Machine
end

