-- ==== Sys2Proof/Machine/Sequencer.lean ====
section
/-! DEFINITION. The sequencer: what the block does with one word from the command port
(43_host_control.md R150) and with reset (70_reset_and_hazards.md R190). -/

namespace Sys2Proof.Machine

/-- One 32-bit word is taken (R150). While a DECODE first word is held, the word completes that command,
whatever its value (R193); a word with opcode 0x4 is held, with no response yet; any other word is a whole
command. -/
def takeWord (w : Word) (s : State) : Result :=
  if s.pend then exec (decodeTwoWords s.pendW0 w) (releaseFirstWord s)
  else if isTwoWord w then .next (holdFirstWord w s)
  else exec (decodeOneWord w) s

/-- Reset (R190): every piece of state to its reset value, a held DECODE first word and every untaken
response word discarded, no response sent. `rest` is what the host sends after it. -/
def takeReset (rest : List PortInput) : State := setInput rest State.reset

/-- The words of one command placed where the next step takes them: a one-word command at the head of the
command port with nothing held; of a two-word command the first word held and the second at the head
(log 8). -/
def placeWords (w0 w1 : Word) (s : State) : State :=
  if isTwoWord w0 then { holdFirstWord w0 s with input := .word w1 :: s.input }
  else { releaseFirstWord s with input := .word w0 :: s.input }

end Sys2Proof.Machine
end

