-- ==== Sys2Proof/Machine/Step.lean ====
section
/-! DEFINITION. One step of the machine: the sequencer takes what is at the head of the command port
(43_host_control.md R150). -/

namespace Sys2Proof.Machine

/-- The step. Where nothing has arrived the block waits and nothing changes (log 3). -/
def step (s : State) : Host.Outcome State Fault Refusal :=
  match s.input with
  | [] => .next s
  | .reset :: rest => .next (takeReset rest)
  | .word w :: rest => takeWord w (setInput rest s)

/-- The instruction of `decodeTableWord nbits w` placed so that the very next step runs it (log 8). -/
def State.withFetchWord (s : State) (nbits w : Nat) : State :=
  placeWords (tableWord nbits w 0) (tableWord nbits w 1) s

end Sys2Proof.Machine
end

