-- ==== Sys2Proof/Machine/Assembler.lean ====
section
/-! DEFINITION. The assembler: the command forms of 30_encoding.md R68, the pseudo-instructions of R69, and
the text of a line. It is notation for the host's words; the block itself sees words only. -/

namespace Sys2Proof.Machine

/-- One line of assembly, operands as the numbers written (R68, R69). -/
inductive AsmLine where
  | init
  | wrbuf (idx data : Nat)
  | crc (start len : Nat)
  /-- `DECODE tlen`, or `DECODE tlen, now`. -/
  | decode (tlen : Nat) (now : Option Nat)
  | getch (index : Nat)
  | getall
  | getts
  | getbaud
  /-- `.word w`. -/
  | word (w : Nat)
  /-- `LOAD base, b0, …, bk`. -/
  | load (base b0 : Nat) (bytes : List Nat)
  /-- `FRAME b0, …, bk`. -/
  | frame (b0 : Nat) (bytes : List Nat)
  /-- `FRAMECRC tlen`. -/
  | frameCrc (tlen : Nat)
  /-- `DECODEAT tlen, now`. -/
  | decodeAt (tlen now : Nat)
  deriving DecidableEq, Repr

/-- Words where every operand is in its field's range; the assembler refuses any other operand (R68). -/
def wordsIf (inRange : Bool) (ws : List Nat) : Option (List Word) :=
  if inRange then some (ws.map (BitVec.ofNat 32)) else none

/-- `WRBUF idx, data` (R68). -/
def asmWrbuf (idx data : Nat) : Option (List Word) :=
  wordsIf (decide (idx ≤ 63) && decide (data ≤ 255)) [0x20000000 ||| (idx <<< 8) ||| data]

/-- `CRC start, len` (R68): a range the block rejects by rule is not refused. -/
def asmCrc (start len : Nat) : Option (List Word) :=
  wordsIf (decide (start ≤ 63) && decide (len ≤ 127)) [0x30000000 ||| (len <<< 8) ||| start]

/-- `DECODE tlen` sends NOWV = 0 and a zero second word; `DECODE tlen, now` sends NOWV = 1 (R68). -/
def asmDecode (tlen : Nat) : Option Nat → Option (List Word)
  | none => wordsIf (decide (tlen ≤ 255)) [0x40000000 ||| tlen, 0]
  | some now => wordsIf (decide (tlen ≤ 255) && decide (now < 2 ^ 32)) [0x40000100 ||| tlen, now]

/-- `LOAD base, b0, …, bk`: one WRBUF a byte, at `base + 0` to `base + k` (R69). -/
def asmLoad (base : Nat) : List Nat → Option (List Word)
  | [] => some []
  | b :: bytes =>
    match asmWrbuf base b, asmLoad (base + 1) bytes with
    | some ws, some rest => some (ws ++ rest)
    | _, _ => none

/-- The words of a line, or nothing where the assembler refuses it (R68, R69). -/
def assemble : AsmLine → Option (List Word)
  | .init => some [0x10000000#32]
  | .wrbuf idx data => asmWrbuf idx data
  | .crc start len => asmCrc start len
  | .decode tlen now => asmDecode tlen now
  | .getch index => wordsIf (decide (index ≤ 255)) [0x50000000 ||| index]
  | .getall => some [0x60000000#32]
  | .getts => some [0x70000000#32]
  | .getbaud => some [0x80000000#32]
  | .word w => wordsIf (decide (w < 2 ^ 32)) [w]
  | .load base b0 bytes => asmLoad base (b0 :: bytes)
  | .frame b0 bytes => asmLoad 0 (b0 :: bytes)
  | .frameCrc tlen => if 3 ≤ tlen ∧ tlen ≤ 64 then asmCrc 2 (tlen - 3) else none
  | .decodeAt tlen now => asmDecode tlen (some now)

/-! ### The text of a line (R68; white space is the model's convention, log 15) -/

/-- The value of a digit of a base up to 16. -/
def digitValue (base : Nat) (c : Char) : Option Nat :=
  let d :=
    if '0' ≤ c ∧ c ≤ '9' then c.toNat - '0'.toNat
    else if 'a' ≤ c ∧ c ≤ 'f' then c.toNat - 'a'.toNat + 10
    else if 'A' ≤ c ∧ c ≤ 'F' then c.toNat - 'A'.toNat + 10
    else 16
  if d < base then some d else none

/-- The number of a run of digits, read from the left onto what has been read. -/
def readDigits (base : Nat) : Nat → List Char → Option Nat
  | acc, [] => some acc
  | acc, c :: cs =>
    match digitValue base c with
    | some d => readDigits base (acc * base + d) cs
    | none => none

/-- A number: decimal, or hexadecimal after `0x` (R68). -/
def readNumber : List Char → Option Nat
  | [] => none
  | '0' :: 'x' :: cs => if cs.isEmpty then none else readDigits 16 0 cs
  | cs => readDigits 10 0 cs

/-- Blanks inside a line. -/
def isBlank (c : Char) : Bool := c == ' ' || c == '\t' || c == '\r'

/-- A text without the blanks at its two ends. -/
def trimBlanks (cs : List Char) : List Char :=
  ((cs.dropWhile isBlank).reverse.dropWhile isBlank).reverse

/-- A text cut at every separator. -/
def cutAt (sep : Char) : List Char → List (List Char)
  | [] => [[]]
  | c :: cs =>
    if c = sep then [] :: cutAt sep cs
    else
      match cutAt sep cs with
      | [] => [[c]]
      | h :: t => (c :: h) :: t

/-- Operands separated by commas (R68); a line's mnemonic may stand alone. -/
def readOperands (cs : List Char) : Option (List Nat) :=
  if cs.isEmpty then some []
  else (cutAt ',' cs).mapM fun o => readNumber (trimBlanks o)

/-- The forms of R68 and R69: a mnemonic in upper case with its operands. -/
def formOf (name : String) (ops : List Nat) : Option AsmLine :=
  match name, ops with
  | "INIT", [] => some .init
  | "WRBUF", [i, d] => some (.wrbuf i d)
  | "CRC", [s, l] => some (.crc s l)
  | "DECODE", [t] => some (.decode t none)
  | "DECODE", [t, n] => some (.decode t (some n))
  | "GETCH", [i] => some (.getch i)
  | "GETALL", [] => some .getall
  | "GETTS", [] => some .getts
  | "GETBAUD", [] => some .getbaud
  | ".word", [w] => some (.word w)
  | "LOAD", base :: b0 :: bs => some (.load base b0 bs)
  | "FRAME", b0 :: bs => some (.frame b0 bs)
  | "FRAMECRC", [t] => some (.frameCrc t)
  | "DECODEAT", [t, n] => some (.decodeAt t n)
  | _, _ => none

/-- The words of one line of text: `;` starts a comment, a line with nothing before it has no words, and a
line of no form is refused (R68). -/
def assembleLine (text : List Char) : Option (List Word) :=
  let code := trimBlanks (text.takeWhile (· != ';'))
  if code.isEmpty then some []
  else
    let name := code.takeWhile (fun c => !isBlank c)
    let rest := trimBlanks (code.dropWhile (fun c => !isBlank c))
    match readOperands rest with
    | none => none
    | some ops =>
      match formOf (String.ofList name) ops with
      | none => none
      | some line => assemble line

/-- The words of a text, one command a line (R68). -/
def assembleText (text : List Char) : Option (List Word) :=
  ((cutAt '\n' text).mapM assembleLine).map List.flatten

end Sys2Proof.Machine
end

