-- ==== Sys2Proof/Machine/Port.lean ====
section
/-! DEFINITION. What the host can do to the block between steps: send command words (30_encoding.md R60),
assert reset (70_reset_and_hazards.md R190) and take response words (20_memory.md R49). -/

namespace Sys2Proof.Machine

/-- The host sends command words, after everything it sent before. -/
def hostSend (ws : List Word) (s : State) : State := { s with input := s.input ++ ws.map .word }

/-- The host asserts reset, after everything it sent before. -/
def hostReset (s : State) : State := { s with input := s.input ++ [.reset] }

/-- The host takes the oldest `n` response words. -/
def hostTake (n : Nat) (s : State) : State := { s with respOut := s.respOut.drop n }

end Sys2Proof.Machine
end

