-- ==== Sys2Proof/Safety.lean ====
section
/-! DEFINITION. What the rules promise of every state, and the states a block can be in. -/

namespace Sys2Proof.Machine

/-- `LAST_TS_VALID = 0` implies `LAST_TS = 0` (10_state.md R24). -/
abbrev TimestampInv (s : State) : Prop := s.lastTsValid = false → s.lastTs = 0#32

/-- `PEND = 1` means a word with the DECODE opcode is held; otherwise `PEND_W0 = 0` (10_state.md R31). -/
abbrev PendInv (s : State) : Prop :=
  (s.pend = true → s.pendW0.extractLsb' 28 4 = 0x4#4) ∧ (s.pend = false → s.pendW0 = 0#32)

/-- The invariant of every state of the block: the timestamp's, the sequencer's, and the canonical form of
the frame buffer. -/
abbrev State.Inv (s : State) : Prop := TimestampInv s ∧ PendInv s ∧ Memory.wf s.fb = true

/-- The states a block can be in: reset, steps, and the host's three actions between steps. -/
inductive Reachable : State → Prop where
  | reset : Reachable State.reset
  | step {s t : State} : Reachable s → step s = .next t → Reachable t
  | send {s : State} (ws : List Word) : Reachable s → Reachable (hostSend ws s)
  | assertReset {s : State} : Reachable s → Reachable (hostReset s)
  | take {s : State} (n : Nat) : Reachable s → Reachable (hostTake n s)

end Sys2Proof.Machine
end

