-- ==== Sys2Proof/WellFormed.lean ====
section
/-! DEFINITION. Which terms of `Instr` stand for a command. An operand's width is its field's width, so
only the ILLEGAL row has something to check: its first word is one the opcode map does not select, and
it has a second word exactly when its opcode is 0x4 (30_encoding.md R60, R65). -/

namespace Sys2Proof

/-- Whether some legal row of the opcode map selects a first word (30_encoding.md R64). -/
def isLegalFirst (w : Word) : Bool := opcodeMap.any (·.selects w)

def Instr.wellFormed : Instr → Bool
  | .init => true
  | .wrbuf _ _ => true
  | .crc _ _ => true
  | .decode _ _ _ => true
  | .getch _ => true
  | .getall => true
  | .getts => true
  | .getbaud => true
  | .illegal first second => !isLegalFirst first && (second.isSome == isTwoWord first)

end Sys2Proof
end

