-- ==== Sys2Proof/Certificates/Slice0/Obligations.lean ====
section
/-! DEFINITION. The statements for the provers, from the numbered rules of spec/. Status words are written as
the numbers of 30_encoding.md R66: 0x0 OK, 0x00001601 VALID, 0x2 ADDRESS_ERROR, 0x3 PAYLOAD_ERROR,
0x4 UNSUPPORTED_TYPE, 0x5 NOT_FOUND, 0x6 RANGE_ERROR, 0x7 ILLEGAL_CMD. -/

namespace Sys2Proof.Claims

open Sys2Proof.Machine

/-- How the sequencer takes the first word of a one-word command with opcode `op`: where the word matches
the row's mask and pattern it runs `run w`; where a must-be-zero bit is set it answers ILLEGAL_CMD and
nothing else changes. -/
def OneWordCommand (op : BitVec 4) (mask pattern : Word) (run : Word → Instr) : Prop :=
  ∀ (s : State) (w : Word) (rest : List PortInput),
    s.pend = false → s.input = .word w :: rest → w.extractLsb' 28 4 = op →
    (w &&& mask = pattern → step s = exec (run w) { s with input := rest }) ∧
    (w &&& mask ≠ pattern →
      step s = .next { s with input := rest, respOut := s.respOut ++ [0x00000007#32] })

/-- `FB[a] .. FB[a+n-1]`. -/
def bytesFrom (fb : Memory) (a n : Nat) : List Byte :=
  (List.range n).map fun k => readByte fb (BitVec.ofNat 6 (a + k))

/-- Step 1 and step 2 pass: the address is 0xC8, `FB[1] >= 5`, `TLEN <= 64` and `FB[1] = TLEN - 2`. -/
abbrev HeaderGood (fb : Memory) (tlen : Byte) : Prop :=
  readByte fb 0#6 = 0xC8#8 ∧ 5 ≤ (readByte fb 1#6).toNat ∧ tlen.toNat ≤ 64 ∧
    ((readByte fb 1#6).toNat : Int) = (tlen.toNat : Int) - 2

/-- Step 3 passes: the checksum over `FB[2] .. FB[TLEN-2]` is `FB[TLEN-1]`. -/
abbrev CrcGood (fb : Memory) (tlen : Byte) : Prop :=
  crc8 (bytesFrom fb 2 (tlen.toNat - 3)) = readByte fb (BitVec.ofNat 6 (tlen.toNat - 1))

/-- The meanings of a list of instructions, one after the other. -/
def execAll : List Instr → State → Result
  | [], s => .next s
  | i :: is, s =>
    match exec i s with
    | .next t => execAll is t
    | .fault r => .fault r
    | .refused r => .refused r

/-- The polynomial over GF(2) whose coefficients are the bits of a number. -/
noncomputable def bitsPoly (n width : Nat) : Polynomial (ZMod 2) :=
  ∑ i ∈ Finset.range width, if n.testBit i then Polynomial.X ^ i else 0

/-- The number whose base-256 digits are the bytes, the first byte the highest. -/
def bigEndian (bytes : List Byte) : Nat := bytes.foldl (fun acc b => acc * 256 + b.toNat) 0

end Sys2Proof.Claims

open Sys2Proof Sys2Proof.Machine Sys2Proof.Claims

/-! ### Encoding -/

/-- Words written out from the formats of 30_encoding.md R62 decode to the commands they stand for. -/
def Obligations.SpecWordsDecodeAsWritten : Prop :=
  decode [0x10000000#32] = .command .init [] ∧
  decode [0x20003FAB#32] = .command (.wrbuf 63#6 0xAB#8) [] ∧
  decode [0x30000702#32] = .command (.crc 2#6 7#7) [] ∧
  decode [0x4000011A#32, 0x000003E8#32] = .command (.decode 26#8 true 1000#32) [] ∧
  decode [0x4000001A#32, 0x60000000#32] = .command (.decode 26#8 false 0x60000000#32) [] ∧
  decode [0x5000000F#32] = .command (.getch 15#8) [] ∧
  decode [0x60000000#32] = .command .getall [] ∧
  decode [0x70000000#32] = .command .getts [] ∧
  decode [0x80000000#32] = .command .getbaud [] ∧
  decode [0x00000000#32] = .command (.illegal 0x00000000#32 none) [] ∧
  decode [0x300009C0#32] = .command (.illegal 0x300009C0#32 none) [] ∧
  decode [0x40000200#32, 0x60000000#32] = .command (.illegal 0x40000200#32 (some 0x60000000#32)) []

/-- No bit of an encoding is dropped: decoding an encoded well-formed instruction gives it back, with every
operand at every value, and leaves the words after it. -/
def Obligations.DecodeGivesBackEncoded : Prop :=
  ∀ (i : Instr) (rest : List Word), i.wellFormed = true → decode (encode i ++ rest) = .command i rest

/-- Each stream of words has one meaning: what is decoded is well formed, and encoding it gives the words
back. -/
def Obligations.EncodeGivesBackDecoded : Prop :=
  ∀ (ws : List Word) (i : Instr) (rest : List Word), decode ws = .command i rest →
    i.wellFormed = true ∧ encode i ++ rest = ws

/-- R60: the opcode of the first word alone tells the length, also where the word is illegal; DECODE's second
word is taken whole as `NOW`. -/
def Obligations.FirstWordTellsCommandLength : Prop :=
  ∀ (w w1 : Word) (rest : List Word),
    (w.extractLsb' 28 4 ≠ 0x4#4 → ∃ i, decode (w :: rest) = .command i rest) ∧
    (w.extractLsb' 28 4 = 0x4#4 →
      decode [w] = .rejected .secondWordMissing ∧
      (∃ i, decode (w :: w1 :: rest) = .command i rest) ∧
      ∀ tlen nowv now rest', decode (w :: w1 :: rest) = .command (.decode tlen nowv now) rest' → now = w1)

/-- R64: the opcode map, row by row; the condition on the first word is the whole condition. Opcodes 0x0 and
0x9 to 0xF are illegal commands of one word. -/
def Obligations.DecoderFollowsOpcodeMap : Prop :=
  ∀ (w w1 : Word), ∃ i rest, decode [w, w1] = .command i rest ∧
    (i = .init ↔ w = 0x10000000#32) ∧
    ((∃ idx data, i = .wrbuf idx data) ↔ w &&& 0xFFFFC000#32 = 0x20000000#32) ∧
    ((∃ start len, i = .crc start len) ↔ w &&& 0xFFFF80C0#32 = 0x30000000#32) ∧
    ((∃ tlen nowv now, i = .decode tlen nowv now) ↔ w &&& 0xFFFFFE00#32 = 0x40000000#32) ∧
    ((∃ index, i = .getch index) ↔ w &&& 0xFFFFFF00#32 = 0x50000000#32) ∧
    (i = .getall ↔ w = 0x60000000#32) ∧
    (i = .getts ↔ w = 0x70000000#32) ∧
    (i = .getbaud ↔ w = 0x80000000#32) ∧
    (w.extractLsb' 28 4 = 0x0#4 ∨ 9 ≤ (w.extractLsb' 28 4).toNat → i = .illegal w none) ∧
    (rest = if w.extractLsb' 28 4 = 0x4#4 then [] else [w1])

/-- R65 and R155: which first words are illegal, and that an illegal command answers ILLEGAL_CMD with no data
word and changes nothing but PEND and PEND_W0; an illegal DECODE first word still takes the next word. -/
def Obligations.IllegalCommandsChangeNothing : Prop :=
  (∀ (s : State) (first : Word) (second : Option Word),
    exec (.illegal first second) s = .next { s with respOut := s.respOut ++ [0x00000007#32] }) ∧
  (∀ (s : State) (w : Word) (rest : List PortInput),
    s.pend = false → s.input = .word w :: rest →
    (w.extractLsb' 28 4 = 0x0#4 ∨ 9 ≤ (w.extractLsb' 28 4).toNat ∨
      ((w.extractLsb' 28 4 = 0x1#4 ∨ w.extractLsb' 28 4 = 0x6#4 ∨ w.extractLsb' 28 4 = 0x7#4 ∨
        w.extractLsb' 28 4 = 0x8#4) ∧ w.extractLsb' 0 28 ≠ 0#28) ∨
      (w.extractLsb' 28 4 = 0x2#4 ∧ w.extractLsb' 14 14 ≠ 0#14) ∨
      (w.extractLsb' 28 4 = 0x3#4 ∧ (w.extractLsb' 15 13 ≠ 0#13 ∨ w.extractLsb' 6 2 ≠ 0#2)) ∨
      (w.extractLsb' 28 4 = 0x5#4 ∧ w.extractLsb' 8 20 ≠ 0#20)) →
    step s = .next { s with input := rest, respOut := s.respOut ++ [0x00000007#32] }) ∧
  (∀ (s : State) (w w1 : Word) (rest : List PortInput),
    s.pend = false → s.input = .word w :: .word w1 :: rest →
    w.extractLsb' 28 4 = 0x4#4 → w.extractLsb' 9 19 ≠ 0#19 →
    ∃ t, step s = .next t ∧ t = { s with input := .word w1 :: rest, pend := true, pendW0 := w } ∧
      step t = .next { s with input := rest, pendW0 := 0#32, respOut := s.respOut ++ [0x00000007#32] })

/-! ### The sequencer -/

/-- R150: the block's step on one word, case by case; every word is accepted and taken, the step never stops,
and it responds at once but for a DECODE first word. -/
def Obligations.SequencerTakesOneWord : Prop :=
  ∀ (s : State) (w : Word) (rest : List PortInput), s.input = .word w :: rest →
    let t : State := { s with input := rest }
    let free : State := { s with input := rest, pend := false, pendW0 := 0#32 }
    let illegal : Result := .next { t with respOut := s.respOut ++ [0x00000007#32] }
    (s.pend = true → s.pendW0.extractLsb' 9 19 ≠ 0#19 →
      step s = .next { free with respOut := s.respOut ++ [0x00000007#32] }) ∧
    (s.pend = true → s.pendW0.extractLsb' 9 19 = 0#19 →
      step s = exec (.decode (s.pendW0.extractLsb' 0 8) (s.pendW0.getLsbD 8) w) free) ∧
    (s.pend = false →
      (w.extractLsb' 28 4 = 0x1#4 → step s =
        if w.extractLsb' 0 28 = 0#28 then exec .init t else illegal) ∧
      (w.extractLsb' 28 4 = 0x2#4 → step s =
        if w.extractLsb' 14 14 = 0#14 then exec (.wrbuf (w.extractLsb' 8 6) (w.extractLsb' 0 8)) t
        else illegal) ∧
      (w.extractLsb' 28 4 = 0x3#4 → step s =
        if w.extractLsb' 15 13 = 0#13 ∧ w.extractLsb' 6 2 = 0#2 then
          exec (.crc (w.extractLsb' 0 6) (w.extractLsb' 8 7)) t
        else illegal) ∧
      (w.extractLsb' 28 4 = 0x4#4 → step s = .next { t with pend := true, pendW0 := w }) ∧
      (w.extractLsb' 28 4 = 0x5#4 → step s =
        if w.extractLsb' 8 20 = 0#20 then exec (.getch (w.extractLsb' 0 8)) t else illegal) ∧
      (w.extractLsb' 28 4 = 0x6#4 → step s =
        if w.extractLsb' 0 28 = 0#28 then exec .getall t else illegal) ∧
      (w.extractLsb' 28 4 = 0x7#4 → step s =
        if w.extractLsb' 0 28 = 0#28 then exec .getts t else illegal) ∧
      (w.extractLsb' 28 4 = 0x8#4 → step s =
        if w.extractLsb' 0 28 = 0#28 then exec .getbaud t else illegal) ∧
      (w.extractLsb' 28 4 = 0x0#4 ∨ 9 ≤ (w.extractLsb' 28 4).toNat → step s = illegal)) ∧
    (∃ u, step s = .next u ∧ u.input = rest ∧
      (u.respOut = s.respOut ↔ s.pend = false ∧ w.extractLsb' 28 4 = 0x4#4))

/-- A step runs the decoded instruction: of a one-word command when its word is taken with nothing held; of a
two-word command when its second word is taken with the first one held, which the step releases. -/
def Obligations.StepRunsDecodedInstruction : Prop :=
  ∀ (s : State) (w : Word) (rest : List PortInput) (i : Instr), s.input = .word w :: rest →
    (s.pend = false → decode [w] = .command i [] → step s = exec i { s with input := rest }) ∧
    (s.pend = true → s.pendW0.extractLsb' 28 4 = 0x4#4 → decode [s.pendW0, w] = .command i [] →
      step s = exec i { s with input := rest, pend := false, pendW0 := 0#32 })

/-- R170: no fault, no halt and no refusal: every step and every run answers a next state, and so does every
instruction in every state. -/
def Obligations.NeverFaultsNeverHalts : Prop :=
  (∀ (i : Instr) (s : State), ∃ t, exec i s = .next t) ∧
  (∀ (n : Nat) (s : State), ∃ t, Sys2Proof.core.run n s = .next t)

/-- Model's choice (log 3): where nothing has arrived, a step changes nothing. -/
def Obligations.NothingArrivedNothingChanges : Prop :=
  ∀ s : State, s.input = [] → step s = .next s

/-- The reset values of R190's table, and reset at any moment (R190; the shape of the port is log 1): every
piece of state takes its reset value, a held DECODE first word and every untaken response word are discarded,
and no response is sent. -/
def Obligations.ResetPutsEveryValue : Prop :=
  ∀ (s : State) (rest : List PortInput), s.input = .reset :: rest →
    ∃ t, step s = .next t ∧ (∀ i : Fin 16, t.ch[i] = 0#11) ∧ t.lastTsValid = false ∧ t.lastTs = 0#32 ∧
      (∀ a : Addr, readByte t.fb a = 0x00#8) ∧ t.pend = false ∧ t.pendW0 = 0#32 ∧
      t.input = rest ∧ t.respOut = [] ∧ t = { State.reset with input := rest }

/-- R23 and R26: after reset and after INIT every channel is 0 and no timestamp is present, and reading CH
answers in every state. -/
def Obligations.ResetAndInitClearInstance : Prop :=
  (∀ i : Fin 16, State.reset.ch[i] = 0#11) ∧ State.reset.lastTsValid = false ∧
  State.reset.lastTs = 0#32 ∧
  (∀ s : State, ∃ t, exec .init s = .next t ∧ (∀ i : Fin 16, t.ch[i] = 0#11) ∧
    t.lastTsValid = false ∧ t.lastTs = 0#32) ∧
  (∀ (s : State) (index : Byte), ∃ t, exec (.getch index) s = .next t) ∧
  (∀ s : State, ∃ t, exec .getall s = .next t)

/-- R193: after a word with opcode 0x4 the very next word is `NOW`, whatever its value, also after an illegal
first word; the first of the two words gives no response. -/
def Obligations.WordAfterDecodeIsTheTime : Prop :=
  ∀ (s : State) (w0 w1 : Word) (rest : List PortInput),
    s.pend = false → s.input = .word w0 :: .word w1 :: rest → w0.extractLsb' 28 4 = 0x4#4 →
    ∃ t, step s = .next t ∧ t.respOut = s.respOut ∧
      (w0.extractLsb' 9 19 = 0#19 → step t =
        exec (.decode (w0.extractLsb' 0 8) (w0.getLsbD 8) w1)
          { s with input := rest, pend := false, pendW0 := 0#32 }) ∧
      (w0.extractLsb' 9 19 ≠ 0#19 → step t = .next { s with
        input := rest, pend := false, pendW0 := 0#32, respOut := s.respOut ++ [0x00000007#32] })

/-- R49: commands run one at a time in the order in which their words arrive, each seeing the effects of every
earlier one, and their responses are emitted in that order. For every list of well-formed instructions the
steps over their words are their meanings one after the other. -/
def Obligations.CommandsRunInArrivalOrder : Prop :=
  ∀ (is : List Instr) (rest : List PortInput) (s : State),
    (∀ i ∈ is, i.wellFormed = true) → s.pend = false → s.pendW0 = 0#32 →
    s.input = (is.flatMap encode).map PortInput.word ++ rest →
    Sys2Proof.core.run (is.flatMap encode).length s = execAll is { s with input := rest }

/-- R66 and R67: every command answers exactly one status word, a number R66 lists for it, and then the data
words R67 names for its opcode and CODE, with their values; FT is 0x16 on VALID and 0x00 otherwise; what was
emitted before stays before it. -/
def Obligations.EveryCommandAnswersOnce : Prop :=
  ∀ (i : Instr) (s t : State), exec i s = .next t →
    ∃ (S : Word) (data : List Word), t.respOut = s.respOut ++ S :: data ∧
      match i with
      | .init => S = 0x00000000#32 ∧ data = []
      | .wrbuf _ _ => S = 0x00000000#32 ∧ data = []
      | .crc start len =>
        (S = 0x00000000#32 ∧ data = [(crc8 (bytesFrom s.fb start.toNat len.toNat)).setWidth 32]) ∨
        (S = 0x00000006#32 ∧ data = [])
      | .decode _ _ _ =>
        (S = 0x00001601#32 ∨ S = 0x00000002#32 ∨ S = 0x00000003#32 ∨ S = 0x00000004#32) ∧ data = []
      | .getch index =>
        (S = 0x00000000#32 ∧ ∃ k : Fin 16, k.val = index.toNat ∧ data = [s.ch[k].setWidth 32]) ∨
        (S = 0x00000005#32 ∧ data = [])
      | .getall => S = 0x00000000#32 ∧ data.length = 16 ∧
        ∀ k : Fin 16, data[k.val]? = some (s.ch[k].setWidth 32)
      | .getts => S = 0x00000000#32 ∧
        data = [if s.lastTsValid then 0x00000001#32 else 0x00000000#32, s.lastTs]
      | .getbaud => S = 0x00000000#32 ∧ data = [0x000668A0#32]
      | .illegal _ _ => S = 0x00000007#32 ∧ data = []

/-- The words the host places with `withFetchWord` are what the very next step runs (log 8). -/
def Obligations.PlacedWordsRunNext : Prop :=
  ∀ (s : State) (nbits w : Nat) (i : Instr), decodeTableWord nbits w = some i →
    step (s.withFetchWord nbits w) = exec i { s with pend := false, pendW0 := 0#32 }

/-! ### Invariants and whole-machine rules -/

/-- The invariant holds at reset. -/
def Obligations.ResetMeetsTheInvariant : Prop := State.reset.Inv

/-- Every step keeps the invariant, from every state that meets it: the timestamp's (10_state.md R24), the
sequencer's (R31) and the canonical form of the frame buffer. -/
def Obligations.StepKeepsTheInvariant : Prop :=
  ∀ s t : State, s.Inv → step s = .next t → t.Inv

/-- Every state the block can be in, with the host sending words, asserting reset and taking responses at any
moment, meets the invariant. -/
def Obligations.ReachableStatesMeetTheInvariant : Prop :=
  ∀ s : State, Reachable s → s.Inv

/-- R21 and R25: the channels and the timestamp are written in only two ways: by a DECODE that responds VALID,
all 16 registers at once and the time with them, and by INIT or reset, to zero; and each of these does write
them. -/
def Obligations.InstanceStateWrittenTwoWays : Prop :=
  ∀ s t : State, step s = .next t →
    ((t.ch = s.ch ∧ t.lastTsValid = s.lastTsValid ∧ t.lastTs = s.lastTs) ∨
      (∃ rest, s.input = .reset :: rest) ∨
      (s.pend = false ∧ ∃ rest, s.input = .word 0x10000000#32 :: rest) ∨
      (s.pend = true ∧ t.respOut = s.respOut ++ [0x00001601#32])) ∧
    (((∃ rest, s.input = .reset :: rest) ∨
        (s.pend = false ∧ ∃ rest, s.input = .word 0x10000000#32 :: rest)) →
      (∀ i : Fin 16, t.ch[i] = 0#11) ∧ t.lastTsValid = false ∧ t.lastTs = 0#32) ∧
    (∀ now rest, s.pend = true → s.input = .word now :: rest → t.respOut = s.respOut ++ [0x00001601#32] →
      t.lastTsValid = s.pendW0.getLsbD 8 ∧
      t.lastTs = (if s.pendW0.getLsbD 8 then now else 0#32) ∧
      ∀ (i : Fin 16) (j : Nat), j < 11 → t.ch[i].getLsbD j =
        (readByte s.fb (BitVec.ofNat 6 (3 + (11 * i.val + j) / 8))).getLsbD ((11 * i.val + j) % 8))

/-- R30: no command writes the frame buffer except WRBUF, and WRBUF writes the one byte its word names; reset
clears it. -/
def Obligations.FrameBufferWrittenByWrbufOnly : Prop :=
  ∀ s t : State, step s = .next t → ∀ a : Addr,
    readByte t.fb a = readByte s.fb a ∨
    (readByte t.fb a = 0x00#8 ∧ ∃ rest, s.input = .reset :: rest) ∨
    (s.pend = false ∧ ∃ w rest, s.input = .word w :: rest ∧ w &&& 0xFFFFC000#32 = 0x20000000#32 ∧
      w.extractLsb' 8 6 = a ∧ readByte t.fb a = w.extractLsb' 0 8)

/-- R46: CRC, GETCH, GETALL, GETTS and GETBAUD change no state, and repeating one gives the same response;
DECODE repeated gives the same response and the same channels, and writes the timestamp again with the new
operand. -/
def Obligations.QueriesChangeNothingAndRepeat : Prop :=
  (∀ (i : Instr) (s : State),
    ((∃ a n, i = .crc a n) ∨ (∃ k, i = .getch k) ∨ i = .getall ∨ i = .getts ∨ i = .getbaud) →
    ∃ ws, exec i s = .next { s with respOut := s.respOut ++ ws } ∧
      exec i { s with respOut := s.respOut ++ ws } = .next { s with respOut := s.respOut ++ ws ++ ws }) ∧
  (∀ (s t : State) (tlen : Byte) (nowv nowv' : Bool) (now now' : Word),
    exec (.decode tlen nowv now) s = .next t →
    ∃ (S : Word) (u : State), t.respOut = s.respOut ++ [S] ∧
      exec (.decode tlen nowv' now') t = .next u ∧ u.respOut = t.respOut ++ [S] ∧ u.ch = t.ch ∧
      u.fb = t.fb ∧ (S = 0x00001601#32 →
        u.lastTsValid = nowv' ∧ u.lastTs = if nowv' then now' else 0#32))

/-- R22: GETCH reads one channel register and GETALL all 16; no other command reads any, so neither its
response nor what it writes depends on them; and reading changes nothing. -/
def Obligations.ChannelsReadByAccessorsOnly : Prop :=
  (∀ (i : Instr) (s t : State) (v : Vector Chan 16),
    i ≠ .getall → (∀ k, i ≠ .getch k) → exec i s = .next t →
    ∃ t', exec i { s with ch := v } = .next t' ∧ t' = { t with ch := t'.ch } ∧
      (t'.ch = t.ch ∨ (t'.ch = v ∧ t.ch = s.ch))) ∧
  (∀ (s t : State) (k : Byte) (v : Vector Chan 16), exec (.getch k) s = .next t →
    t = { s with respOut := t.respOut } ∧
    ((∀ n : Fin 16, n.val = k.toNat → v[n] = s.ch[n]) →
      exec (.getch k) { s with ch := v } = .next { t with ch := v })) ∧
  (∀ (s t t' : State) (v : Vector Chan 16), exec .getall s = .next t →
    t = { s with respOut := t.respOut } ∧
    (exec .getall { s with ch := v } = .next t' → t'.respOut = t.respOut → v = s.ch))

/-! ### Instance control, buffer load and queries -/

/-- R151: INIT. -/
def Obligations.InitConstructsTheInstance : Prop :=
  OneWordCommand 0x1#4 0xFFFFFFFF#32 0x10000000#32 (fun _ => .init) ∧
  ∀ s : State, ∃ t, exec .init s = .next t ∧
    (∀ i : Fin 16, t.ch[i] = 0#11) ∧ t.lastTsValid = false ∧ t.lastTs = 0#32 ∧
    t.fb = s.fb ∧ t.pend = s.pend ∧ t.pendW0 = s.pendW0 ∧ t.input = s.input ∧
    t.respOut = s.respOut ++ [0x00000000#32]

/-- R191: after INIT, with nothing held, the state equals the reset state except for the bytes of FB (and what
stands on the two ports, log 1 and log 2). -/
def Obligations.InitIsResetButForTheBuffer : Prop :=
  ∀ s : State, PendInv s → s.pend = false →
    exec .init s = .next { State.reset with
      fb := s.fb, input := s.input, respOut := s.respOut ++ [0x00000000#32] }

/-- R152: WRBUF writes `FB[IDX]` only. -/
def Obligations.WrbufWritesOneByte : Prop :=
  OneWordCommand 0x2#4 0xFFFFC000#32 0x20000000#32
    (fun w => .wrbuf (w.extractLsb' 8 6) (w.extractLsb' 0 8)) ∧
  ∀ (s : State) (idx : Addr) (data : Byte), ∃ t, exec (.wrbuf idx data) s = .next t ∧
    readByte t.fb idx = data ∧ (∀ a : Addr, a ≠ idx → readByte t.fb a = readByte s.fb a) ∧
    t = { s with fb := t.fb, respOut := s.respOut ++ [0x00000000#32] }

/-- R153: GETTS. -/
def Obligations.GettsAnswersTheTimestamp : Prop :=
  OneWordCommand 0x7#4 0xFFFFFFFF#32 0x70000000#32 (fun _ => .getts) ∧
  ∀ s : State, exec .getts s = .next { s with respOut := s.respOut ++
    [0x00000000#32, if s.lastTsValid then 0x00000001#32 else 0x00000000#32, s.lastTs] }

/-- R154: GETBAUD. -/
def Obligations.GetbaudAnswersTheConstant : Prop :=
  OneWordCommand 0x8#4 0xFFFFFFFF#32 0x80000000#32 (fun _ => .getbaud) ∧
  ∀ s : State, exec .getbaud s = .next { s with respOut := s.respOut ++ [0x00000000#32, 420000#32] }

/-! ### Channel accessors -/

/-- R134: GETCH. -/
def Obligations.GetchAnswersOneChannel : Prop :=
  OneWordCommand 0x5#4 0xFFFFFF00#32 0x50000000#32 (fun w => .getch (w.extractLsb' 0 8)) ∧
  ∀ (s : State) (index : Byte),
    (∀ h : index.toNat < 16, exec (.getch index) s = .next { s with respOut := s.respOut ++
      [0x00000000#32, (s.ch[index.toNat]).setWidth 32] }) ∧
    (16 ≤ index.toNat → exec (.getch index) s = .next { s with respOut := s.respOut ++
      [0x00000005#32] })

/-- R135: GETALL. -/
def Obligations.GetallAnswersOneSnapshot : Prop :=
  OneWordCommand 0x6#4 0xFFFFFFFF#32 0x60000000#32 (fun _ => .getall) ∧
  ∀ s : State, exec .getall s = .next { s with respOut := s.respOut ++
    [0x00000000#32, s.ch[0].setWidth 32, s.ch[1].setWidth 32, s.ch[2].setWidth 32,
     s.ch[3].setWidth 32, s.ch[4].setWidth 32, s.ch[5].setWidth 32, s.ch[6].setWidth 32,
     s.ch[7].setWidth 32, s.ch[8].setWidth 32, s.ch[9].setWidth 32, s.ch[10].setWidth 32,
     s.ch[11].setWidth 32, s.ch[12].setWidth 32, s.ch[13].setWidth 32, s.ch[14].setWidth 32,
     s.ch[15].setWidth 32] }

/-! ### The CRC engine -/

/-- R85: the CRC command. -/
def Obligations.CrcAnswersTheChecksum : Prop :=
  OneWordCommand 0x3#4 0xFFFF80C0#32 0x30000000#32
    (fun w => .crc (w.extractLsb' 0 6) (w.extractLsb' 8 7)) ∧
  ∀ (s : State) (start : Addr) (len : BitVec 7),
    (start.toNat + len.toNat ≤ 64 → exec (.crc start len) s = .next { s with respOut := s.respOut ++
      [0x00000000#32, (crc8 (bytesFrom s.fb start.toNat len.toNat)).setWidth 32] }) ∧
    (64 < start.toNat + len.toNat → exec (.crc start len) s = .next { s with respOut := s.respOut ++
      [0x00000006#32] })

/-- R82: every entry of the ROM is the one its generating rule gives. -/
def Obligations.RomIsGenerated : Prop := ∀ i : Byte, romT i = gen i

/-- R83: the bit-serial form gives the same checksum for every input. -/
def Obligations.CrcEqualsBitSerial : Prop := ∀ bytes : List Byte, crc8 bytes = crc8Serial bytes

/-- R84 (a) and (b): the empty input gives 0, and a message followed by its own checksum gives 0. -/
def Obligations.CrcResidueIsZero : Prop :=
  crc8 [] = 0x00#8 ∧ ∀ m : List Byte, crc8 (m ++ [crc8 m]) = 0x00#8

/-- R84 (c): the ROM is linear, and so is the checksum over inputs of equal length. -/
def Obligations.CrcIsLinear : Prop :=
  (∀ a b : Byte, romT (a ^^^ b) = romT a ^^^ romT b) ∧
  (∀ m e : List Byte, m.length = e.length →
    crc8 (List.zipWith (· ^^^ ·) m e) = crc8 m ^^^ crc8 e)

/-- R84 (d): the ROM is a permutation with 0 at 0 only, and an input with exactly one nonzero byte has a
nonzero checksum. -/
def Obligations.OneNonzeroByteIsSeen : Prop :=
  (∀ a b : Byte, romT a = romT b → a = b) ∧ (∀ a : Byte, romT a = 0x00#8 ↔ a = 0x00#8) ∧
  ∀ (n k : Nat) (x : Byte), x ≠ 0x00#8 →
    crc8 (List.replicate n 0x00#8 ++ x :: List.replicate k 0x00#8) ≠ 0x00#8

/-- R82: table lookup is polynomial division over GF(2): the checksum is the remainder of `M(x) * x^8` by
`x^8 + x^7 + x^6 + x^4 + x^2 + 1`, for every message. -/
def Obligations.CrcIsPolynomialRemainder : Prop :=
  ∀ m : List Byte,
    (bitsPoly (bigEndian m) (8 * m.length) * Polynomial.X ^ 8) %ₘ
      (Polynomial.X ^ 8 + Polynomial.X ^ 7 + Polynomial.X ^ 6 + Polynomial.X ^ 4 + Polynomial.X ^ 2 + 1) =
    bitsPoly (crc8 m).toNat 8

/-- R88: the catalogue check value over "123456789". -/
def Obligations.CheckValueIsBC : Prop :=
  crc8 [0x31#8, 0x32#8, 0x33#8, 0x34#8, 0x35#8, 0x36#8, 0x37#8, 0x38#8, 0x39#8] = 0xBC#8

/-! ### The frame validator -/

/-- R103: for every TLEN from 1 on, a first byte other than 0xC8 gives ADDRESS_ERROR, whatever the rest of the
buffer and TLEN; and with 0xC8 there no DECODE answers it. -/
def Obligations.WrongAddressIsAddressError : Prop :=
  ∀ (s : State) (tlen : Byte) (nowv : Bool) (now : Word),
    (1 ≤ tlen.toNat → readByte s.fb 0#6 ≠ 0xC8#8 →
      exec (.decode tlen nowv now) s = .next { s with respOut := s.respOut ++ [0x00000002#32] }) ∧
    (readByte s.fb 0#6 = 0xC8#8 → ∃ t S, exec (.decode tlen nowv now) s = .next t ∧
      t.respOut = s.respOut ++ [S] ∧ S ≠ 0x00000002#32)

/-- R104: with the address good, each of the three length conditions gives PAYLOAD_ERROR, in integers with no
wrap; and a frame that passes has `7 <= TLEN <= 64` and `FB[1] = TLEN - 2`. -/
def Obligations.BadLengthIsPayloadError : Prop :=
  ∀ (s : State) (tlen : Byte) (nowv : Bool) (now : Word),
    (1 ≤ tlen.toNat → readByte s.fb 0#6 = 0xC8#8 →
      ((readByte s.fb 1#6).toNat < 5 ∨ 64 < tlen.toNat ∨
        ((readByte s.fb 1#6).toNat : Int) ≠ (tlen.toNat : Int) - 2) →
      exec (.decode tlen nowv now) s = .next { s with respOut := s.respOut ++ [0x00000003#32] }) ∧
    (∀ t S, exec (.decode tlen nowv now) s = .next t → t.respOut = s.respOut ++ [S] →
      (S = 0x00001601#32 ∨ S = 0x00000004#32) →
      7 ≤ tlen.toNat ∧ tlen.toNat ≤ 64 ∧ (readByte s.fb 1#6).toNat = tlen.toNat - 2)

/-- R105: the checksum over `FB[2] .. FB[TLEN-2]` that differs from `FB[TLEN-1]` gives PAYLOAD_ERROR, whatever
the type. -/
def Obligations.BadChecksumIsPayloadError : Prop :=
  ∀ (s : State) (tlen : Byte) (nowv : Bool) (now : Word),
    HeaderGood s.fb tlen → ¬CrcGood s.fb tlen →
    exec (.decode tlen nowv now) s = .next { s with respOut := s.respOut ++ [0x00000003#32] }

/-- R108: a frame that passes steps 1 to 3 and is of another type gives UNSUPPORTED_TYPE. -/
def Obligations.OtherTypesAreUnsupported : Prop :=
  ∀ (s : State) (tlen : Byte) (nowv : Bool) (now : Word),
    HeaderGood s.fb tlen → CrcGood s.fb tlen → readByte s.fb 2#6 ≠ 0x16#8 →
    exec (.decode tlen nowv now) s = .next { s with respOut := s.respOut ++ [0x00000004#32] }

/-- R106: an RC frame whose payload is not 22 bytes gives PAYLOAD_ERROR; and a VALID response needs
`FB[1] = 24`, TLEN = 26, and every check passed. -/
def Obligations.ValidNeedsTwentyTwoBytes : Prop :=
  ∀ (s : State) (tlen : Byte) (nowv : Bool) (now : Word),
    (HeaderGood s.fb tlen → CrcGood s.fb tlen → readByte s.fb 2#6 = 0x16#8 →
      ((readByte s.fb 1#6).toNat : Int) - 2 ≠ 22 →
      exec (.decode tlen nowv now) s = .next { s with respOut := s.respOut ++ [0x00000003#32] }) ∧
    (∀ t, exec (.decode tlen nowv now) s = .next t → t.respOut = s.respOut ++ [0x00001601#32] →
      readByte s.fb 1#6 = 24#8 ∧ tlen = 26#8 ∧ readByte s.fb 2#6 = 0x16#8 ∧ HeaderGood s.fb tlen ∧
        CrcGood s.fb tlen)

/-- R107: a valid RC frame commits all 16 channels and the time in one step and answers VALID with FT 0x16.
Channel i takes the stream bits 11i to 11i+10 of the payload `FB[3..24]`. -/
def Obligations.ValidFrameCommitsChannelsAndTime : Prop :=
  ∀ (s : State) (nowv : Bool) (now : Word),
    HeaderGood s.fb 26#8 → CrcGood s.fb 26#8 → readByte s.fb 2#6 = 0x16#8 →
    ∃ t, exec (.decode 26#8 nowv now) s = .next t ∧
      (∀ (i : Fin 16) (j : Nat), j < 11 → t.ch[i].getLsbD j =
        (readByte s.fb (BitVec.ofNat 6 (3 + (11 * i.val + j) / 8))).getLsbD ((11 * i.val + j) % 8)) ∧
      t.lastTsValid = nowv ∧ t.lastTs = (if nowv then now else 0#32) ∧ t.fb = s.fb ∧
      t.pend = s.pend ∧ t.pendW0 = s.pendW0 ∧ t.input = s.input ∧
      t.respOut = s.respOut ++ [0x00001601#32]

/-- R101, R109 and R111: a DECODE never writes FB; one that does not respond VALID writes no state and
carries FT NONE; and an illegal command writes none either. -/
def Obligations.FailedDecodeWritesNothing : Prop :=
  (∀ (s t : State) (tlen : Byte) (nowv : Bool) (now : Word), exec (.decode tlen nowv now) s = .next t →
    t.fb = s.fb ∧ ∃ S : Word, t.respOut = s.respOut ++ [S] ∧
      (S.extractLsb' 0 4 = 0x1#4 → S.extractLsb' 8 8 = 0x16#8) ∧
      (S.extractLsb' 0 4 ≠ 0x1#4 → S.extractLsb' 8 8 = 0x00#8 ∧
        t = { s with respOut := s.respOut ++ [S] })) ∧
  (∀ (s t : State) (first : Word) (second : Option Word), exec (.illegal first second) s = .next t →
    t = { s with respOut := t.respOut })

/-- R102 and R113: a DECODE's response, and on VALID the channels, depend on nothing but TLEN and the bytes
`FB[0] .. FB[min(TLEN,64)-1]`: not on other bytes, the stored state or the time; and where a byte the checks
need is missing the response is PAYLOAD_ERROR. -/
def Obligations.DecodeReadsOnlyPresentBytes : Prop :=
  (∀ (s s' t t' : State) (tlen : Byte) (nowv nowv' : Bool) (now now' : Word),
    (∀ a : Addr, a.toNat < min tlen.toNat 64 → readByte s.fb a = readByte s'.fb a) →
    exec (.decode tlen nowv now) s = .next t → exec (.decode tlen nowv' now') s' = .next t' →
    ∃ S : Word, t.respOut = s.respOut ++ [S] ∧ t'.respOut = s'.respOut ++ [S] ∧
      (S = 0x00001601#32 → t.ch = t'.ch ∧
        t.lastTsValid = nowv ∧ t.lastTs = if nowv then now else 0#32)) ∧
  (∀ (s : State) (nowv : Bool) (now : Word), exec (.decode 0#8 nowv now) s =
    .next { s with respOut := s.respOut ++ [0x00000003#32] }) ∧
  (∀ (s : State) (nowv : Bool) (now : Word), readByte s.fb 0#6 = 0xC8#8 →
    exec (.decode 1#8 nowv now) s = .next { s with respOut := s.respOut ++ [0x00000003#32] })

/-- R112: the responses each class of TLEN can give. -/
def Obligations.OutcomesByTotalLength : Prop :=
  ∀ (s t : State) (tlen : Byte) (nowv : Bool) (now : Word), exec (.decode tlen nowv now) s = .next t →
    ∃ S : Word, t.respOut = s.respOut ++ [S] ∧
      (tlen.toNat = 0 → S = 0x00000003#32) ∧
      (1 ≤ tlen.toNat ∧ tlen.toNat ≤ 6 ∨ 65 ≤ tlen.toNat →
        S = if readByte s.fb 0#6 ≠ 0xC8#8 then 0x00000002#32 else 0x00000003#32) ∧
      (7 ≤ tlen.toNat ∧ tlen.toNat ≤ 64 → S = 0x00001601#32 ∨ S = 0x00000002#32 ∨
        S = 0x00000003#32 ∨ S = 0x00000004#32) ∧
      (S = 0x00001601#32 → tlen.toNat = 26)

/-- R172: when several error causes hold for one DECODE, the response is the first one in the rule's order; the
must-be-zero bits of the first word come before all of them. -/
def Obligations.FirstFailingCheckAnswers : Prop :=
  ∀ (s : State) (now : Word) (rest : List PortInput), s.pend = true → s.input = .word now :: rest →
    ∃ t, step s = .next t ∧
      t.respOut = s.respOut ++
        [if s.pendW0.extractLsb' 9 19 ≠ 0#19 then 0x00000007#32
         else if s.pendW0.extractLsb' 0 8 = 0#8 then 0x00000003#32
         else if readByte s.fb 0#6 ≠ 0xC8#8 then 0x00000002#32
         else if s.pendW0.extractLsb' 0 8 = 1#8 then 0x00000003#32
         else if ¬HeaderGood s.fb (s.pendW0.extractLsb' 0 8) then 0x00000003#32
         else if ¬CrcGood s.fb (s.pendW0.extractLsb' 0 8) then 0x00000003#32
         else if readByte s.fb 2#6 ≠ 0x16#8 then 0x00000004#32
         else if readByte s.fb 1#6 ≠ 24#8 then 0x00000003#32
         else 0x00001601#32]

/-- R84 (e): changing any one byte (so any one bit) of the type, the payload or the checksum of a frame that
passes its checks makes the DECODE answer PAYLOAD_ERROR. -/
def Obligations.EveryOneByteChangeIsCaught : Prop :=
  ∀ (s : State) (tlen : Byte) (nowv : Bool) (now : Word) (a : Addr) (v : Byte),
    HeaderGood s.fb tlen → CrcGood s.fb tlen → 2 ≤ a.toNat → a.toNat < tlen.toNat →
    v ≠ readByte s.fb a →
    exec (.decode tlen nowv now) { s with fb := writeByte s.fb a v } =
      .next { s with fb := writeByte s.fb a v, respOut := s.respOut ++ [0x00000003#32] }

/-! ### The unpacker -/

/-- R130: bit j of channel i is stream bit 11i+j, that is bit (11i+j) mod 8 of payload byte (11i+j)/8. -/
def Obligations.UnpackFollowsTheBitStream : Prop :=
  ∀ (p : List Byte) (i : Fin 16) (j : Nat), p.length = 22 → j < 11 →
    (unpack p)[i].getLsbD j = (p.getD ((11 * i.val + j) / 8) 0#8).getLsbD ((11 * i.val + j) % 8)

/-- R131: the unrolled fixed-offset form gives the same values for every payload. -/
def Obligations.UnrolledFormEqualsUnpack : Prop :=
  ∀ p : List Byte, p.length = 22 → unpackUnrolled p = unpack p

/-- R132: the generic bit-cursor form with 11 bits gives the same values for every payload. -/
def Obligations.CursorFormEqualsUnpack : Prop :=
  ∀ p : List Byte, p.length = 22 → unpackGeneric p 11 = (unpack p).toList.map (·.toNat)

/-- R136: the round-trip law of pack and unpack, both ways. -/
def Obligations.PackUnpackRoundTrip : Prop :=
  (∀ v : Vector Chan 16, (pack v).length = 22 ∧ unpack (pack v) = v) ∧
  (∀ p : List Byte, p.length = 22 → pack (unpack p) = p)

/-- A frame built from any 16 values, its payload packed and its checksum computed, decodes to VALID with
exactly those values in CH, whatever the rest of the state (R100, R136). -/
def Obligations.PackedFrameDecodesToItsValues : Prop :=
  ∀ (s : State) (v : Vector Chan 16) (nowv : Bool) (now : Word),
    bytesFrom s.fb 0 26 = [0xC8#8, 0x18#8, 0x16#8] ++ pack v ++ [crc8 (0x16#8 :: pack v)] →
    exec (.decode 26#8 nowv now) s = .next { s with
      ch := v, lastTsValid := nowv, lastTs := if nowv then now else 0#32,
      respOut := s.respOut ++ [0x00001601#32] }

/-! ### The assembler -/

/-- R68: the assembler's forms are the encodings of the commands they name, and an operand outside its field's
range is refused. -/
def Obligations.AssemblerEncodesEveryForm : Prop :=
  assemble .init = some (encode .init) ∧ assemble .getall = some (encode .getall) ∧
  assemble .getts = some (encode .getts) ∧ assemble .getbaud = some (encode .getbaud) ∧
  (∀ (idx : Addr) (data : Byte), assemble (.wrbuf idx.toNat data.toNat) = some (encode (.wrbuf idx data))) ∧
  (∀ (start : Addr) (len : BitVec 7),
    assemble (.crc start.toNat len.toNat) = some (encode (.crc start len))) ∧
  (∀ tlen : Byte, assemble (.decode tlen.toNat none) = some (encode (.decode tlen false 0#32))) ∧
  (∀ (tlen : Byte) (now : Word),
    assemble (.decode tlen.toNat (some now.toNat)) = some (encode (.decode tlen true now))) ∧
  (∀ index : Byte, assemble (.getch index.toNat) = some (encode (.getch index))) ∧
  (∀ w : Word, assemble (.word w.toNat) = some [w]) ∧
  (∀ idx data : Nat, 63 < idx ∨ 255 < data → assemble (.wrbuf idx data) = none) ∧
  (∀ start len : Nat, 63 < start ∨ 127 < len → assemble (.crc start len) = none) ∧
  (∀ (tlen now : Nat), 255 < tlen ∨ 2 ^ 32 ≤ now → assemble (.decode tlen (some now)) = none) ∧
  (∀ tlen : Nat, 255 < tlen → assemble (.decode tlen none) = none) ∧
  (∀ index : Nat, 255 < index → assemble (.getch index) = none) ∧
  (∀ w : Nat, 2 ^ 32 ≤ w → assemble (.word w) = none)

/-- R69: LOAD is one WRBUF a byte at rising addresses, and assembles exactly where the bytes fit. From R152,
R150 and R49: its words, taken one by one, put each byte at its address and answer OK for each; nothing else
changes. FRAME is LOAD at 0, FRAMECRC the CRC of bytes
2 to tlen-2, DECODEAT a DECODE. -/
def Obligations.LoadPutsEveryByte : Prop :=
  (∀ (base b0 : Nat) (bs : List Nat),
    (assemble (.load base b0 bs) ≠ none ↔ base + bs.length ≤ 63 ∧ ∀ b ∈ b0 :: bs, b ≤ 255)) ∧
  (∀ (base b0 : Nat) (bs : List Nat) (ws : List Word), assemble (.load base b0 bs) = some ws →
    ws = ((b0 :: bs).zipIdx base).flatMap fun p =>
      encode (.wrbuf (BitVec.ofNat 6 p.2) (BitVec.ofNat 8 p.1))) ∧
  (∀ (b0 : Nat) (bs : List Nat), assemble (.frame b0 bs) = assemble (.load 0 b0 bs)) ∧
  (∀ tlen : Nat, 3 ≤ tlen ∧ tlen ≤ 64 → assemble (.frameCrc tlen) = assemble (.crc 2 (tlen - 3))) ∧
  (∀ tlen : Nat, tlen < 3 ∨ 64 < tlen → assemble (.frameCrc tlen) = none) ∧
  (∀ tlen now : Nat, assemble (.decodeAt tlen now) = assemble (.decode tlen (some now))) ∧
  (∀ (base b0 : Nat) (bs : List Nat) (ws : List Word) (s : State) (rest : List PortInput),
    assemble (.load base b0 bs) = some ws → s.pend = false →
    s.input = ws.map PortInput.word ++ rest →
    ∃ t, Sys2Proof.core.run ws.length s = .next t ∧
      (∀ k (h : k < (b0 :: bs).length),
        readByte t.fb (BitVec.ofNat 6 (base + k)) = BitVec.ofNat 8 ((b0 :: bs)[k])) ∧
      (∀ a : Addr, (a.toNat < base ∨ base + bs.length < a.toNat) → readByte t.fb a = readByte s.fb a) ∧
      t = { s with fb := t.fb, input := rest,
                   respOut := s.respOut ++ List.replicate (bs.length + 1) 0x00000000#32 })
end

