-- ==== Sys2Proof/Laws/Decode.lean ====
section
/-! SUPPORT. Fields of a word bit by bit, and the opcode map's masks as conditions on the fields
(30_encoding.md R62, R64). -/

namespace Sys2Proof

theorem bits_iff {n : Nat} {a b : BitVec n} : a = b ↔ ∀ j < n, a.getLsbD j = b.getLsbD j :=
  ⟨fun h _ _ => by rw [h], fun h => BitVec.eq_of_getLsbD_eq h⟩

/-- A field has a value exactly when its bits have. -/
theorem slice_eq_iff (w : Word) (lo n : Nat) (v : BitVec n) :
    w.extractLsb' lo n = v ↔ ∀ j < n, w.getLsbD (lo + j) = v.getLsbD j := by
  rw [bits_iff]
  constructor
  · intro h j hj; simpa [hj] using h j hj
  · intro h j hj; simpa [hj] using h j hj

theorem isTwoWord_iff (w : Word) : isTwoWord w = true ↔ opc w = 0x4#4 := by
  simp [isTwoWord]

theorem selects_init_iff (w : Word) : w &&& 0xFFFFFFFF#32 = 0x10000000#32 ↔
    opc w = 0x1#4 ∧ w.extractLsb' 0 28 = 0#28 := by
  unfold opc
  rw [slice_eq_iff, slice_eq_iff, bits_iff]
  constructor
  · intro h
    constructor
    · intro j hj
      have := h (28 + j) (by omega)
      interval_cases j <;> simpa using this
    · intro j hj
      have := h (0 + j) (by omega)
      interval_cases j <;> simpa using this
  · rintro ⟨h1, h2⟩ j hj
    rw [BitVec.getLsbD_and]
    by_cases hj2 : j < 28
    · have := h2 j hj2
      rw [Nat.zero_add] at this
      rw [this]
      interval_cases j <;> simp
    · have := h1 (j - 28) (by omega)
      rw [show 28 + (j - 28) = j by omega] at this
      rw [this]
      interval_cases j <;> simp

theorem selects_wrbuf_iff (w : Word) : w &&& 0xFFFFC000#32 = 0x20000000#32 ↔
    opc w = 0x2#4 ∧ w.extractLsb' 14 14 = 0#14 := by
  unfold opc
  rw [slice_eq_iff, slice_eq_iff, bits_iff]
  constructor
  · intro h
    constructor
    · intro j hj
      have := h (28 + j) (by omega)
      interval_cases j <;> simpa using this
    · intro j hj
      have := h (14 + j) (by omega)
      interval_cases j <;> simpa using this
  · rintro ⟨h1, h2⟩ j hj
    rw [BitVec.getLsbD_and]
    by_cases hj1 : j < 14
    · interval_cases j <;> simp
    · by_cases hj2 : j < 28
      · have := h2 (j - 14) (by omega)
        rw [show 14 + (j - 14) = j by omega] at this
        rw [this]
        interval_cases j <;> simp
      · have := h1 (j - 28) (by omega)
        rw [show 28 + (j - 28) = j by omega] at this
        rw [this]
        interval_cases j <;> simp

theorem selects_decode_iff (w : Word) : w &&& 0xFFFFFE00#32 = 0x40000000#32 ↔
    opc w = 0x4#4 ∧ w.extractLsb' 9 19 = 0#19 := by
  unfold opc
  rw [slice_eq_iff, slice_eq_iff, bits_iff]
  constructor
  · intro h
    constructor
    · intro j hj
      have := h (28 + j) (by omega)
      interval_cases j <;> simpa using this
    · intro j hj
      have := h (9 + j) (by omega)
      interval_cases j <;> simpa using this
  · rintro ⟨h1, h2⟩ j hj
    rw [BitVec.getLsbD_and]
    by_cases hj1 : j < 9
    · interval_cases j <;> simp
    · by_cases hj2 : j < 28
      · have := h2 (j - 9) (by omega)
        rw [show 9 + (j - 9) = j by omega] at this
        rw [this]
        interval_cases j <;> simp
      · have := h1 (j - 28) (by omega)
        rw [show 28 + (j - 28) = j by omega] at this
        rw [this]
        interval_cases j <;> simp

theorem selects_getch_iff (w : Word) : w &&& 0xFFFFFF00#32 = 0x50000000#32 ↔
    opc w = 0x5#4 ∧ w.extractLsb' 8 20 = 0#20 := by
  unfold opc
  rw [slice_eq_iff, slice_eq_iff, bits_iff]
  constructor
  · intro h
    constructor
    · intro j hj
      have := h (28 + j) (by omega)
      interval_cases j <;> simpa using this
    · intro j hj
      have := h (8 + j) (by omega)
      interval_cases j <;> simpa using this
  · rintro ⟨h1, h2⟩ j hj
    rw [BitVec.getLsbD_and]
    by_cases hj1 : j < 8
    · interval_cases j <;> simp
    · by_cases hj2 : j < 28
      · have := h2 (j - 8) (by omega)
        rw [show 8 + (j - 8) = j by omega] at this
        rw [this]
        interval_cases j <;> simp
      · have := h1 (j - 28) (by omega)
        rw [show 28 + (j - 28) = j by omega] at this
        rw [this]
        interval_cases j <;> simp

theorem selects_getall_iff (w : Word) : w &&& 0xFFFFFFFF#32 = 0x60000000#32 ↔
    opc w = 0x6#4 ∧ w.extractLsb' 0 28 = 0#28 := by
  unfold opc
  rw [slice_eq_iff, slice_eq_iff, bits_iff]
  constructor
  · intro h
    constructor
    · intro j hj
      have := h (28 + j) (by omega)
      interval_cases j <;> simpa using this
    · intro j hj
      have := h (0 + j) (by omega)
      interval_cases j <;> simpa using this
  · rintro ⟨h1, h2⟩ j hj
    rw [BitVec.getLsbD_and]
    by_cases hj2 : j < 28
    · have := h2 j hj2
      rw [Nat.zero_add] at this
      rw [this]
      interval_cases j <;> simp
    · have := h1 (j - 28) (by omega)
      rw [show 28 + (j - 28) = j by omega] at this
      rw [this]
      interval_cases j <;> simp

theorem selects_getts_iff (w : Word) : w &&& 0xFFFFFFFF#32 = 0x70000000#32 ↔
    opc w = 0x7#4 ∧ w.extractLsb' 0 28 = 0#28 := by
  unfold opc
  rw [slice_eq_iff, slice_eq_iff, bits_iff]
  constructor
  · intro h
    constructor
    · intro j hj
      have := h (28 + j) (by omega)
      interval_cases j <;> simpa using this
    · intro j hj
      have := h (0 + j) (by omega)
      interval_cases j <;> simpa using this
  · rintro ⟨h1, h2⟩ j hj
    rw [BitVec.getLsbD_and]
    by_cases hj2 : j < 28
    · have := h2 j hj2
      rw [Nat.zero_add] at this
      rw [this]
      interval_cases j <;> simp
    · have := h1 (j - 28) (by omega)
      rw [show 28 + (j - 28) = j by omega] at this
      rw [this]
      interval_cases j <;> simp

theorem selects_getbaud_iff (w : Word) : w &&& 0xFFFFFFFF#32 = 0x80000000#32 ↔
    opc w = 0x8#4 ∧ w.extractLsb' 0 28 = 0#28 := by
  unfold opc
  rw [slice_eq_iff, slice_eq_iff, bits_iff]
  constructor
  · intro h
    constructor
    · intro j hj
      have := h (28 + j) (by omega)
      interval_cases j <;> simpa using this
    · intro j hj
      have := h (0 + j) (by omega)
      interval_cases j <;> simpa using this
  · rintro ⟨h1, h2⟩ j hj
    rw [BitVec.getLsbD_and]
    by_cases hj2 : j < 28
    · have := h2 j hj2
      rw [Nat.zero_add] at this
      rw [this]
      interval_cases j <;> simp
    · have := h1 (j - 28) (by omega)
      rw [show 28 + (j - 28) = j by omega] at this
      rw [this]
      interval_cases j <;> simp

theorem selects_crc_iff (w : Word) : w &&& 0xFFFF80C0#32 = 0x30000000#32 ↔
    opc w = 0x3#4 ∧ w.extractLsb' 15 13 = 0#13 ∧ w.extractLsb' 6 2 = 0#2 := by
  unfold opc
  rw [slice_eq_iff, slice_eq_iff, slice_eq_iff, bits_iff]
  constructor
  · intro h
    refine ⟨?_, ?_, ?_⟩
    · intro j hj
      have := h (28 + j) (by omega)
      interval_cases j <;> simpa using this
    · intro j hj
      have := h (15 + j) (by omega)
      interval_cases j <;> simpa using this
    · intro j hj
      have := h (6 + j) (by omega)
      interval_cases j <;> simpa using this
  · rintro ⟨h1, h2, h3⟩ j hj
    rw [BitVec.getLsbD_and]
    by_cases hj1 : j < 6
    · interval_cases j <;> simp
    · by_cases hj2 : j < 8
      · have := h3 (j - 6) (by omega)
        rw [show 6 + (j - 6) = j by omega] at this
        rw [this]
        interval_cases j <;> simp
      · by_cases hj3 : j < 15
        · interval_cases j <;> simp
        · by_cases hj4 : j < 28
          · have := h2 (j - 15) (by omega)
            rw [show 15 + (j - 15) = j by omega] at this
            rw [this]
            interval_cases j <;> simp
          · have := h1 (j - 28) (by omega)
            rw [show 28 + (j - 28) = j by omega] at this
            rw [this]
            interval_cases j <;> simp

theorem and_allOnes_eq (w v : Word) : w &&& 0xFFFFFFFF#32 = v ↔ w = v := by
  rw [show (0xFFFFFFFF#32 : Word) = BitVec.allOnes 32 by decide, BitVec.and_allOnes]

/-- The opcode map selects a first word exactly when its opcode is 0x1 to 0x8 and every must-be-zero bit of
that format is 0 (30_encoding.md R65). -/
theorem isLegalFirst_iff (w : Word) : isLegalFirst w = true ↔
    (opc w = 0x1#4 ∧ w.extractLsb' 0 28 = 0#28) ∨ (opc w = 0x2#4 ∧ w.extractLsb' 14 14 = 0#14) ∨
    (opc w = 0x3#4 ∧ w.extractLsb' 15 13 = 0#13 ∧ w.extractLsb' 6 2 = 0#2) ∨
    (opc w = 0x4#4 ∧ w.extractLsb' 9 19 = 0#19) ∨ (opc w = 0x5#4 ∧ w.extractLsb' 8 20 = 0#20) ∨
    (opc w = 0x6#4 ∧ w.extractLsb' 0 28 = 0#28) ∨ (opc w = 0x7#4 ∧ w.extractLsb' 0 28 = 0#28) ∨
    (opc w = 0x8#4 ∧ w.extractLsb' 0 28 = 0#28) := by
  rw [← selects_init_iff, ← selects_wrbuf_iff, ← selects_crc_iff, ← selects_decode_iff,
    ← selects_getch_iff, ← selects_getall_iff, ← selects_getts_iff, ← selects_getbaud_iff]
  simp only [isLegalFirst, opcodeMap, OpcodeRow.selects, List.any_cons, List.any_nil, Bool.or_false,
    Bool.or_eq_true, beq_iff_eq]

/-! ### One-word decoding, opcode by opcode (43_host_control.md R150) -/

theorem decodeOneWord_init {w : Word} (h : opc w = 0x1#4) : decodeOneWord w =
    if w.extractLsb' 0 28 = 0#28 then .init else .illegal w none := by
  unfold decodeOneWord
  rw [h]
  rfl

theorem decodeOneWord_wrbuf {w : Word} (h : opc w = 0x2#4) : decodeOneWord w =
    if w.extractLsb' 14 14 = 0#14 then .wrbuf (w.extractLsb' 8 6) (w.extractLsb' 0 8) else .illegal w none := by
  unfold decodeOneWord
  rw [h]
  rfl

theorem decodeOneWord_crc {w : Word} (h : opc w = 0x3#4) : decodeOneWord w =
    if w.extractLsb' 15 13 = 0#13 ∧ w.extractLsb' 6 2 = 0#2 then .crc (w.extractLsb' 0 6) (w.extractLsb' 8 7) else .illegal w none := by
  unfold decodeOneWord
  rw [h]
  rfl

theorem decodeOneWord_getch {w : Word} (h : opc w = 0x5#4) : decodeOneWord w =
    if w.extractLsb' 8 20 = 0#20 then .getch (w.extractLsb' 0 8) else .illegal w none := by
  unfold decodeOneWord
  rw [h]
  rfl

theorem decodeOneWord_getall {w : Word} (h : opc w = 0x6#4) : decodeOneWord w =
    if w.extractLsb' 0 28 = 0#28 then .getall else .illegal w none := by
  unfold decodeOneWord
  rw [h]
  rfl

theorem decodeOneWord_getts {w : Word} (h : opc w = 0x7#4) : decodeOneWord w =
    if w.extractLsb' 0 28 = 0#28 then .getts else .illegal w none := by
  unfold decodeOneWord
  rw [h]
  rfl

theorem decodeOneWord_getbaud {w : Word} (h : opc w = 0x8#4) : decodeOneWord w =
    if w.extractLsb' 0 28 = 0#28 then .getbaud else .illegal w none := by
  unfold decodeOneWord
  rw [h]
  rfl

theorem decodeOneWord_otherOpcode {w : Word} (h : opc w = 0x0#4 ∨ 9 ≤ (opc w).toNat) :
    decodeOneWord w = .illegal w none := by
  have hn : ∀ k : BitVec 4, (k = 0#4 ∨ 9 ≤ k.toNat) → k ≠ 1#4 ∧ k ≠ 2#4 ∧ k ≠ 3#4 ∧ k ≠ 5#4 ∧ k ≠ 6#4 ∧
      k ≠ 7#4 ∧ k ≠ 8#4 := by decide
  obtain ⟨h1, h2, h3, h5, h6, h7, h8⟩ := hn _ h
  unfold decodeOneWord
  rw [if_neg h1, if_neg h2, if_neg h3, if_neg h5, if_neg h6, if_neg h7, if_neg h8]

/-- Every opcode falls under exactly one case of the sequencer. -/
theorem opc_cases (w : Word) :
    opc w = 0x1#4 ∨ opc w = 0x2#4 ∨ opc w = 0x3#4 ∨ opc w = 0x4#4 ∨ opc w = 0x5#4 ∨ opc w = 0x6#4 ∨
    opc w = 0x7#4 ∨ opc w = 0x8#4 ∨ (opc w = 0x0#4 ∨ 9 ≤ (opc w).toNat) := by
  have h : ∀ k : BitVec 4, k = 0x1#4 ∨ k = 0x2#4 ∨ k = 0x3#4 ∨ k = 0x4#4 ∨ k = 0x5#4 ∨ k = 0x6#4 ∨
    k = 0x7#4 ∨ k = 0x8#4 ∨ (k = 0x0#4 ∨ 9 ≤ k.toNat) := by decide
  exact h _

end Sys2Proof
end

