-- ==== Sys2Proof/Laws/Memory.lean ====
section
/-! SUPPORT. The laws of the frame buffer: read after write, the other bytes, the canonical form. -/

namespace Sys2Proof.Machine

theorem readCell_eraseCell_same (m : Memory) (a : Nat) :
    readCell (eraseCell m a) a = Config.fbReset := by
  induction m with
  | nil => rfl
  | cons c r ih =>
    obtain ⟨k, x⟩ := c
    by_cases h : k = a <;> simp [eraseCell, readCell, h, ih]

theorem readCell_eraseCell_ne (m : Memory) {a b : Nat} (h : b ≠ a) :
    readCell (eraseCell m a) b = readCell m b := by
  induction m with
  | nil => rfl
  | cons c r ih =>
    obtain ⟨k, x⟩ := c
    by_cases hk : k = a
    · simp [eraseCell, readCell, hk, ih, Ne.symm h]
    · simp [eraseCell, readCell, hk, ih]

/-- Inserting at an address that reads as unlisted gives the byte there. -/
theorem readCell_insertCell_same (m : Memory) (a : Nat) (v : Byte) (h : ∀ c ∈ m, c.1 ≠ a) :
    readCell (insertCell m a v) a = v := by
  induction m with
  | nil => simp [insertCell, readCell]
  | cons c r ih =>
    obtain ⟨k, x⟩ := c
    have hk : k ≠ a := h (k, x) (by simp)
    have hr : ∀ c ∈ r, c.1 ≠ a := fun c hc => h c (by simp [hc])
    by_cases hlt : a < k <;> simp [insertCell, readCell, hlt, hk, ih hr]

theorem readCell_insertCell_ne (m : Memory) {a b : Nat} (v : Byte) (h : b ≠ a) :
    readCell (insertCell m a v) b = readCell m b := by
  induction m with
  | nil => simp [insertCell, readCell, Ne.symm h]
  | cons c r ih =>
    obtain ⟨k, x⟩ := c
    by_cases hlt : a < k
    · simp [insertCell, readCell, hlt, Ne.symm h]
    · simp [insertCell, readCell, hlt, ih]

theorem mem_eraseCell {m : Memory} {a : Nat} {c : Host.Cell} (h : c ∈ eraseCell m a) :
    c ∈ m ∧ c.1 ≠ a := by
  induction m with
  | nil => simp [eraseCell] at h
  | cons d r ih =>
    obtain ⟨k, x⟩ := d
    by_cases hk : k = a
    · simp only [eraseCell, hk, if_true] at h
      exact ⟨List.mem_cons_of_mem _ (ih h).1, (ih h).2⟩
    · simp only [eraseCell, hk, if_false, List.mem_cons] at h
      obtain rfl | h := h
      · exact ⟨by simp, hk⟩
      · exact ⟨List.mem_cons_of_mem _ (ih h).1, (ih h).2⟩

theorem readCell_writeCell_same (m : Memory) (a : Nat) (v : Byte) :
    readCell (writeCell m a v) a = v := by
  unfold writeCell
  split
  · rename_i h; rw [readCell_eraseCell_same, h]
  · exact readCell_insertCell_same _ _ _ fun _ hc => (mem_eraseCell hc).2

theorem readCell_writeCell_ne (m : Memory) {a b : Nat} (v : Byte) (h : b ≠ a) :
    readCell (writeCell m a v) b = readCell m b := by
  unfold writeCell
  split
  · exact readCell_eraseCell_ne m h
  · rw [readCell_insertCell_ne _ _ h, readCell_eraseCell_ne m h]

/-- A byte just written reads as written. -/
@[simp] theorem readByte_writeByte_same (m : Memory) (a : Addr) (v : Byte) :
    readByte (writeByte m a v) a = v := readCell_writeCell_same m _ v

/-- Every other byte reads as before. -/
theorem readByte_writeByte_ne (m : Memory) {a b : Addr} (v : Byte) (h : b ≠ a) :
    readByte (writeByte m a v) b = readByte m b :=
  readCell_writeCell_ne m v fun e => h (BitVec.eq_of_toNat_eq e)

theorem readByte_writeByte (m : Memory) (a b : Addr) (v : Byte) :
    readByte (writeByte m a v) b = if b = a then v else readByte m b := by
  split
  · rename_i h; subst h; exact readByte_writeByte_same m b v
  · rename_i h; exact readByte_writeByte_ne m v h

@[simp] theorem readByte_nil (a : Addr) : readByte [] a = Config.fbReset := rfl

theorem wfFrom_cons (lo k : Nat) (v : Byte) (r : Memory) :
    wfFrom lo ((k, v) :: r) = true ↔
      lo ≤ k ∧ k < 64 ∧ v ≠ Config.fbReset ∧ wfFrom (k + 1) r = true := by
  have : (64 : Nat) = Config.fbSize := rfl
  simp [wfFrom, this, and_assoc]

theorem wfFrom_mono {lo lo' : Nat} (h : lo' ≤ lo) {m : Memory} (hm : wfFrom lo m = true) :
    wfFrom lo' m = true := by
  cases m with
  | nil => rfl
  | cons c r =>
    obtain ⟨k, v⟩ := c
    rw [wfFrom_cons] at hm ⊢
    exact ⟨h.trans hm.1, hm.2⟩

theorem wfFrom_eraseCell {lo : Nat} {m : Memory} (a : Nat) (hm : wfFrom lo m = true) :
    wfFrom lo (eraseCell m a) = true := by
  induction m generalizing lo with
  | nil => rfl
  | cons c r ih =>
    obtain ⟨k, v⟩ := c
    rw [wfFrom_cons] at hm
    by_cases hk : k = a
    · simp only [eraseCell, hk, if_true]
      exact wfFrom_mono (by omega) (ih hm.2.2.2)
    · simp only [eraseCell, hk, if_false]
      rw [wfFrom_cons]
      exact ⟨hm.1, hm.2.1, hm.2.2.1, ih hm.2.2.2⟩

theorem wfFrom_insertCell {lo : Nat} {m : Memory} {a : Nat} {v : Byte} (hlo : lo ≤ a) (ha : a < 64)
    (hv : v ≠ Config.fbReset) (hn : ∀ c ∈ m, c.1 ≠ a) (hm : wfFrom lo m = true) :
    wfFrom lo (insertCell m a v) = true := by
  induction m generalizing lo with
  | nil => exact (wfFrom_cons ..).2 ⟨hlo, ha, hv, rfl⟩
  | cons c r ih =>
    obtain ⟨k, x⟩ := c
    have hk : k ≠ a := hn (k, x) (by simp)
    rw [wfFrom_cons] at hm
    by_cases hlt : a < k
    · simp only [insertCell, hlt, if_true]
      exact (wfFrom_cons ..).2 ⟨hlo, ha, hv, (wfFrom_cons ..).2 ⟨by omega, hm.2⟩⟩
    · simp only [insertCell, hlt, if_false]
      exact (wfFrom_cons ..).2 ⟨hm.1, hm.2.1, hm.2.2.1,
        ih (by omega) (fun c hc => hn c (by simp [hc])) hm.2.2.2⟩

/-- Writing a byte keeps the canonical form. -/
theorem writeByte_wf {m : Memory} (a : Addr) (v : Byte) (hm : Memory.wf m = true) :
    Memory.wf (writeByte m a v) = true := by
  have ha : a.toNat < 64 := a.isLt
  unfold Memory.wf writeByte writeCell
  split
  · exact wfFrom_eraseCell _ hm
  · rename_i hv
    exact wfFrom_insertCell (Nat.zero_le _) ha hv (fun _ hc => (mem_eraseCell hc).2)
      (wfFrom_eraseCell _ hm)

/-- Below its bound, a canonical list reads as unlisted. -/
theorem readCell_of_lt {lo : Nat} {m : Memory} (hm : wfFrom lo m = true) {a : Nat} (h : a < lo) :
    readCell m a = Config.fbReset := by
  induction m generalizing lo with
  | nil => rfl
  | cons c r ih =>
    obtain ⟨k, v⟩ := c
    rw [wfFrom_cons] at hm
    have hk : k ≠ a := by omega
    simp only [readCell, hk, if_false]
    exact ih hm.2.2.2 (by omega)

/-- Canonical memories that read alike are the same list. -/
theorem wfFrom_ext {lo : Nat} {m m' : Memory} (hm : wfFrom lo m = true) (hm' : wfFrom lo m' = true)
    (h : ∀ a, readCell m a = readCell m' a) : m = m' := by
  induction m generalizing lo m' with
  | nil =>
    cases m' with
    | nil => rfl
    | cons c r =>
      obtain ⟨k, v⟩ := c
      exact absurd (by simpa [readCell] using (h k).symm) ((wfFrom_cons ..).1 hm').2.2.1
  | cons c r ih =>
    obtain ⟨k, v⟩ := c
    have hw := (wfFrom_cons ..).1 hm
    cases m' with
    | nil => exact absurd (by simpa [readCell] using h k) hw.2.2.1
    | cons c' r' =>
      obtain ⟨k', v'⟩ := c'
      have hw' := (wfFrom_cons ..).1 hm'
      have hkk : k = k' := by
        rcases Nat.lt_trichotomy k k' with hlt | heq | hlt
        · have := h k
          rw [readCell_of_lt (lo := k') ((wfFrom_cons ..).2 ⟨le_refl _, hw'.2⟩) hlt] at this
          exact absurd (by simpa [readCell] using this) hw.2.2.1
        · exact heq
        · have := (h k').symm
          rw [readCell_of_lt (lo := k) ((wfFrom_cons ..).2 ⟨le_refl _, hw.2⟩) hlt] at this
          exact absurd (by simpa [readCell] using this) hw'.2.2.1
      subst hkk
      have hv : v = v' := by simpa [readCell] using h k
      subst hv
      have hr : r = r' := by
        refine ih hw.2.2.2 hw'.2.2.2 fun a => ?_
        by_cases ha : k = a
        · subst ha
          rw [readCell_of_lt hw.2.2.2 (Nat.lt_succ_self _),
            readCell_of_lt hw'.2.2.2 (Nat.lt_succ_self _)]
        · simpa [readCell, ha] using h a
      rw [hr]

/-- Two canonical frame buffers whose 64 bytes read alike are equal. -/
theorem memory_ext {m m' : Memory} (hm : Memory.wf m = true) (hm' : Memory.wf m' = true)
    (h : ∀ a : Addr, readByte m a = readByte m' a) : m = m' := by
  have out : ∀ {n : Memory} {lo a : Nat}, wfFrom lo n = true → 64 ≤ a →
      readCell n a = Config.fbReset := by
    intro n
    induction n with
    | nil => intros; rfl
    | cons c r ih =>
      intro lo a hn ha
      obtain ⟨k, v⟩ := c
      have hw := (wfFrom_cons ..).1 hn
      have hk : k ≠ a := by omega
      simp only [readCell, hk, if_false]
      exact ih hw.2.2.2 ha
  refine wfFrom_ext hm hm' fun a => ?_
  by_cases ha : a < 64
  · simpa [readByte, Nat.mod_eq_of_lt ha] using h (BitVec.ofNat 6 a)
  · rw [out hm (by omega), out hm' (by omega)]

/-- The bytes of `MemRead(a, n)` inside its domain: the `n` bytes from `a` on, with no wrap
(00_scope.md R12, 20_memory.md R47). -/
theorem memRead_length (m : Memory) (a n : Nat) : (memRead m a n).length = n := by
  simp [memRead]

theorem memRead_getElem (m : Memory) (a n k : Nat) (h : k < (memRead m a n).length) :
    (memRead m a n)[k] = readByte m (BitVec.ofNat 6 (a + k)) := by
  simp [memRead]

/-- A range inside the buffer is read alike from two memories that agree on it. -/
theorem memRead_congr {m m' : Memory} {a n : Nat} (h : ∀ k < n,
    readByte m (BitVec.ofNat 6 (a + k)) = readByte m' (BitVec.ofNat 6 (a + k))) :
    memRead m a n = memRead m' a n := by
  unfold memRead
  exact List.map_congr_left fun k hk => h k (List.mem_range.1 hk)

end Sys2Proof.Machine
end

