-- ==== Sys2Proof/Laws/State.lean ====
section
/-! SUPPORT. One lemma per field per update of the state, each true by rfl. -/

namespace Sys2Proof.Machine

@[simp] theorem emit_ch (c : Code) (ft : FrameType) (d : List Word) (s : State) :
    (emit c ft d s).ch = s.ch := rfl

@[simp] theorem emit_lastTsValid (c : Code) (ft : FrameType) (d : List Word) (s : State) :
    (emit c ft d s).lastTsValid = s.lastTsValid := rfl

@[simp] theorem emit_lastTs (c : Code) (ft : FrameType) (d : List Word) (s : State) :
    (emit c ft d s).lastTs = s.lastTs := rfl

@[simp] theorem emit_fb (c : Code) (ft : FrameType) (d : List Word) (s : State) :
    (emit c ft d s).fb = s.fb := rfl

@[simp] theorem emit_pend (c : Code) (ft : FrameType) (d : List Word) (s : State) :
    (emit c ft d s).pend = s.pend := rfl

@[simp] theorem emit_pendW0 (c : Code) (ft : FrameType) (d : List Word) (s : State) :
    (emit c ft d s).pendW0 = s.pendW0 := rfl

@[simp] theorem emit_input (c : Code) (ft : FrameType) (d : List Word) (s : State) :
    (emit c ft d s).input = s.input := rfl

@[simp] theorem emit_respOut (c : Code) (ft : FrameType) (d : List Word) (s : State) :
    (emit c ft d s).respOut = s.respOut ++ statusWord c ft :: d := rfl

@[simp] theorem setInstance_ch (v : Vector Chan 16) (b : Bool) (ts : Word) (s : State) :
    (setInstance v b ts s).ch = v := rfl

@[simp] theorem setInstance_lastTsValid (v : Vector Chan 16) (b : Bool) (ts : Word) (s : State) :
    (setInstance v b ts s).lastTsValid = b := rfl

@[simp] theorem setInstance_lastTs (v : Vector Chan 16) (b : Bool) (ts : Word) (s : State) :
    (setInstance v b ts s).lastTs = ts := rfl

@[simp] theorem setInstance_fb (v : Vector Chan 16) (b : Bool) (ts : Word) (s : State) :
    (setInstance v b ts s).fb = s.fb := rfl

@[simp] theorem setInstance_pend (v : Vector Chan 16) (b : Bool) (ts : Word) (s : State) :
    (setInstance v b ts s).pend = s.pend := rfl

@[simp] theorem setInstance_pendW0 (v : Vector Chan 16) (b : Bool) (ts : Word) (s : State) :
    (setInstance v b ts s).pendW0 = s.pendW0 := rfl

@[simp] theorem setInstance_input (v : Vector Chan 16) (b : Bool) (ts : Word) (s : State) :
    (setInstance v b ts s).input = s.input := rfl

@[simp] theorem setInstance_respOut (v : Vector Chan 16) (b : Bool) (ts : Word) (s : State) :
    (setInstance v b ts s).respOut = s.respOut := rfl

@[simp] theorem storeByte_ch (a : Addr) (x : Byte) (s : State) :
    (storeByte a x s).ch = s.ch := rfl

@[simp] theorem storeByte_lastTsValid (a : Addr) (x : Byte) (s : State) :
    (storeByte a x s).lastTsValid = s.lastTsValid := rfl

@[simp] theorem storeByte_lastTs (a : Addr) (x : Byte) (s : State) :
    (storeByte a x s).lastTs = s.lastTs := rfl

@[simp] theorem storeByte_fb (a : Addr) (x : Byte) (s : State) :
    (storeByte a x s).fb = writeByte s.fb a x := rfl

@[simp] theorem storeByte_pend (a : Addr) (x : Byte) (s : State) :
    (storeByte a x s).pend = s.pend := rfl

@[simp] theorem storeByte_pendW0 (a : Addr) (x : Byte) (s : State) :
    (storeByte a x s).pendW0 = s.pendW0 := rfl

@[simp] theorem storeByte_input (a : Addr) (x : Byte) (s : State) :
    (storeByte a x s).input = s.input := rfl

@[simp] theorem storeByte_respOut (a : Addr) (x : Byte) (s : State) :
    (storeByte a x s).respOut = s.respOut := rfl

@[simp] theorem holdFirstWord_ch (w : Word) (s : State) :
    (holdFirstWord w s).ch = s.ch := rfl

@[simp] theorem holdFirstWord_lastTsValid (w : Word) (s : State) :
    (holdFirstWord w s).lastTsValid = s.lastTsValid := rfl

@[simp] theorem holdFirstWord_lastTs (w : Word) (s : State) :
    (holdFirstWord w s).lastTs = s.lastTs := rfl

@[simp] theorem holdFirstWord_fb (w : Word) (s : State) :
    (holdFirstWord w s).fb = s.fb := rfl

@[simp] theorem holdFirstWord_pend (w : Word) (s : State) :
    (holdFirstWord w s).pend = true := rfl

@[simp] theorem holdFirstWord_pendW0 (w : Word) (s : State) :
    (holdFirstWord w s).pendW0 = w := rfl

@[simp] theorem holdFirstWord_input (w : Word) (s : State) :
    (holdFirstWord w s).input = s.input := rfl

@[simp] theorem holdFirstWord_respOut (w : Word) (s : State) :
    (holdFirstWord w s).respOut = s.respOut := rfl

@[simp] theorem releaseFirstWord_ch (s : State) :
    (releaseFirstWord s).ch = s.ch := rfl

@[simp] theorem releaseFirstWord_lastTsValid (s : State) :
    (releaseFirstWord s).lastTsValid = s.lastTsValid := rfl

@[simp] theorem releaseFirstWord_lastTs (s : State) :
    (releaseFirstWord s).lastTs = s.lastTs := rfl

@[simp] theorem releaseFirstWord_fb (s : State) :
    (releaseFirstWord s).fb = s.fb := rfl

@[simp] theorem releaseFirstWord_pend (s : State) :
    (releaseFirstWord s).pend = false := rfl

@[simp] theorem releaseFirstWord_pendW0 (s : State) :
    (releaseFirstWord s).pendW0 = 0#32 := rfl

@[simp] theorem releaseFirstWord_input (s : State) :
    (releaseFirstWord s).input = s.input := rfl

@[simp] theorem releaseFirstWord_respOut (s : State) :
    (releaseFirstWord s).respOut = s.respOut := rfl

@[simp] theorem setInput_ch (r : List PortInput) (s : State) :
    (setInput r s).ch = s.ch := rfl

@[simp] theorem setInput_lastTsValid (r : List PortInput) (s : State) :
    (setInput r s).lastTsValid = s.lastTsValid := rfl

@[simp] theorem setInput_lastTs (r : List PortInput) (s : State) :
    (setInput r s).lastTs = s.lastTs := rfl

@[simp] theorem setInput_fb (r : List PortInput) (s : State) :
    (setInput r s).fb = s.fb := rfl

@[simp] theorem setInput_pend (r : List PortInput) (s : State) :
    (setInput r s).pend = s.pend := rfl

@[simp] theorem setInput_pendW0 (r : List PortInput) (s : State) :
    (setInput r s).pendW0 = s.pendW0 := rfl

@[simp] theorem setInput_input (r : List PortInput) (s : State) :
    (setInput r s).input = r := rfl

@[simp] theorem setInput_respOut (r : List PortInput) (s : State) :
    (setInput r s).respOut = s.respOut := rfl

@[simp] theorem takeReset_ch (r : List PortInput) :
    (takeReset r).ch = Vector.replicate 16 0#11 := rfl

@[simp] theorem takeReset_lastTsValid (r : List PortInput) :
    (takeReset r).lastTsValid = false := rfl

@[simp] theorem takeReset_lastTs (r : List PortInput) :
    (takeReset r).lastTs = 0#32 := rfl

@[simp] theorem takeReset_fb (r : List PortInput) :
    (takeReset r).fb = [] := rfl

@[simp] theorem takeReset_pend (r : List PortInput) :
    (takeReset r).pend = false := rfl

@[simp] theorem takeReset_pendW0 (r : List PortInput) :
    (takeReset r).pendW0 = 0#32 := rfl

@[simp] theorem takeReset_input (r : List PortInput) :
    (takeReset r).input = r := rfl

@[simp] theorem takeReset_respOut (r : List PortInput) :
    (takeReset r).respOut = [] := rfl

@[simp] theorem hostSend_ch (ws : List Word) (s : State) :
    (hostSend ws s).ch = s.ch := rfl

@[simp] theorem hostSend_lastTsValid (ws : List Word) (s : State) :
    (hostSend ws s).lastTsValid = s.lastTsValid := rfl

@[simp] theorem hostSend_lastTs (ws : List Word) (s : State) :
    (hostSend ws s).lastTs = s.lastTs := rfl

@[simp] theorem hostSend_fb (ws : List Word) (s : State) :
    (hostSend ws s).fb = s.fb := rfl

@[simp] theorem hostSend_pend (ws : List Word) (s : State) :
    (hostSend ws s).pend = s.pend := rfl

@[simp] theorem hostSend_pendW0 (ws : List Word) (s : State) :
    (hostSend ws s).pendW0 = s.pendW0 := rfl

@[simp] theorem hostSend_input (ws : List Word) (s : State) :
    (hostSend ws s).input = s.input ++ ws.map .word := rfl

@[simp] theorem hostSend_respOut (ws : List Word) (s : State) :
    (hostSend ws s).respOut = s.respOut := rfl

@[simp] theorem hostReset_ch (s : State) :
    (hostReset s).ch = s.ch := rfl

@[simp] theorem hostReset_lastTsValid (s : State) :
    (hostReset s).lastTsValid = s.lastTsValid := rfl

@[simp] theorem hostReset_lastTs (s : State) :
    (hostReset s).lastTs = s.lastTs := rfl

@[simp] theorem hostReset_fb (s : State) :
    (hostReset s).fb = s.fb := rfl

@[simp] theorem hostReset_pend (s : State) :
    (hostReset s).pend = s.pend := rfl

@[simp] theorem hostReset_pendW0 (s : State) :
    (hostReset s).pendW0 = s.pendW0 := rfl

@[simp] theorem hostReset_input (s : State) :
    (hostReset s).input = s.input ++ [.reset] := rfl

@[simp] theorem hostReset_respOut (s : State) :
    (hostReset s).respOut = s.respOut := rfl

@[simp] theorem hostTake_ch (n : Nat) (s : State) :
    (hostTake n s).ch = s.ch := rfl

@[simp] theorem hostTake_lastTsValid (n : Nat) (s : State) :
    (hostTake n s).lastTsValid = s.lastTsValid := rfl

@[simp] theorem hostTake_lastTs (n : Nat) (s : State) :
    (hostTake n s).lastTs = s.lastTs := rfl

@[simp] theorem hostTake_fb (n : Nat) (s : State) :
    (hostTake n s).fb = s.fb := rfl

@[simp] theorem hostTake_pend (n : Nat) (s : State) :
    (hostTake n s).pend = s.pend := rfl

@[simp] theorem hostTake_pendW0 (n : Nat) (s : State) :
    (hostTake n s).pendW0 = s.pendW0 := rfl

@[simp] theorem hostTake_input (n : Nat) (s : State) :
    (hostTake n s).input = s.input := rfl

@[simp] theorem hostTake_respOut (n : Nat) (s : State) :
    (hostTake n s).respOut = s.respOut.drop n := rfl

end Sys2Proof.Machine
end

