-- ==== Sys2Proof/Laws/Ops.lean ====
section
/-! SUPPORT. What the shared operations can answer. -/

namespace Sys2Proof.Machine

/-- `respond` always answers a next state, and it is the one with the response emitted. -/
theorem respond_eq_next {c : Code} {ft : FrameType} {d : List Word} {s t : State} :
    respond c ft d s = .next t ↔ t = emit c ft d s := by
  constructor
  · intro h; exact (Host.Outcome.next.inj h).symm
  · rintro rfl; rfl

/-- `crcRangeFits` is the range check in unbounded integers. -/
theorem crcRangeFits_iff (start : Addr) (len : BitVec 7) :
    crcRangeFits start len = true ↔ start.toNat + len.toNat ≤ 64 := by
  exact decide_eq_true_iff

/-- `n = min(TLEN, 64)`. -/
theorem bytesPresent_eq (tlen : Byte) : bytesPresent tlen = min tlen.toNat 64 := rfl

end Sys2Proof.Machine
end

