-- ==== Sys2Proof/Laws/Frame.lean ====
section
/-! SUPPORT. What the frame validator can answer. -/

namespace Sys2Proof.Machine

theorem lengthGood_iff (fl tlen : Nat) :
    lengthGood fl tlen = true ↔ 5 ≤ fl ∧ tlen ≤ 64 ∧ fl + 2 = tlen := by
  have h : lengthGood fl tlen = true ↔ ¬(fl < 5 ∨ tlen > 64 ∨ (fl : Int) ≠ (tlen : Int) - 2) :=
    decide_eq_true_iff
  rw [h]
  omega

theorem checksumGood_iff (fb : Memory) (fl tlen : Nat) :
    checksumGood fb fl tlen = true ↔
      crc8 (memRead fb 2 (fl - 1)) = readByte fb (BitVec.ofNat 6 (tlen - 1)) := by
  simp [checksumGood]

/-- The dispatch on the type, case by case (41_frame_decoder.md R106, R108). -/
theorem dispatchType_cases (fb : Memory) (fl : Nat) :
    (readByte fb 2#6 ≠ 0x16#8 ∧ dispatchType fb fl = .reject .unsupportedType) ∨
    (readByte fb 2#6 = 0x16#8 ∧ fl ≠ 24 ∧ dispatchType fb fl = .reject .payloadError) ∨
    (readByte fb 2#6 = 0x16#8 ∧ fl = 24 ∧ dispatchType fb fl = .accept (unpack (memRead fb 3 22))) := by
  by_cases ht : readByte fb 2#6 = 0x16#8
  · by_cases hf : fl = 24
    · refine .inr (.inr ⟨ht, hf, ?_⟩)
      simp [dispatchType, Config.typeRc, Config.rcPayloadLen, ht, hf]
    · refine .inr (.inl ⟨ht, hf, ?_⟩)
      have : (fl : Int) - 2 ≠ 22 := by omega
      simp [dispatchType, Config.typeRc, Config.rcPayloadLen, ht, this]
  · refine .inl ⟨ht, ?_⟩
    simp [dispatchType, Config.typeRc, ht]

/-- The length step passes: `frame_length >= 5`, `TLEN <= 64` and `frame_length = TLEN - 2`
(41_frame_decoder.md R104). -/
abbrev LengthPasses (fb : Memory) (tlen : Byte) : Prop :=
  5 ≤ (readByte fb 1#6).toNat ∧ tlen.toNat ≤ 64 ∧ (readByte fb 1#6).toNat + 2 = tlen.toNat

/-- The checksum step passes (41_frame_decoder.md R105). -/
abbrev ChecksumPasses (fb : Memory) (tlen : Byte) : Prop :=
  crc8 (memRead fb 2 ((readByte fb 1#6).toNat - 1)) = readByte fb (BitVec.ofNat 6 (tlen.toNat - 1))

/-- Everything the validator can answer, in the order in which it checks (41_frame_decoder.md R100,
60_exceptions.md R172). -/
theorem validateFrame_cases (fb : Memory) (tlen : Byte) :
    (tlen.toNat = 0 ∧ validateFrame fb tlen = .reject .payloadError) ∨
    (1 ≤ tlen.toNat ∧ readByte fb 0#6 ≠ 0xC8#8 ∧ validateFrame fb tlen = .reject .addressError) ∨
    (1 ≤ tlen.toNat ∧ readByte fb 0#6 = 0xC8#8 ∧ ¬LengthPasses fb tlen ∧
      validateFrame fb tlen = .reject .payloadError) ∨
    (readByte fb 0#6 = 0xC8#8 ∧ LengthPasses fb tlen ∧ ¬ChecksumPasses fb tlen ∧
      validateFrame fb tlen = .reject .payloadError) ∨
    (readByte fb 0#6 = 0xC8#8 ∧ LengthPasses fb tlen ∧ ChecksumPasses fb tlen ∧
      validateFrame fb tlen = dispatchType fb (readByte fb 1#6).toNat) := by
  have hl := lengthGood_iff (readByte fb 1#6).toNat tlen.toNat
  have hc := checksumGood_iff fb (readByte fb 1#6).toNat tlen.toNat
  by_cases h0 : tlen.toNat = 0
  · refine .inl ⟨h0, ?_⟩
    simp [validateFrame, bytesPresent_eq, h0]
  have hn : ¬ min tlen.toNat 64 < 1 := by omega
  by_cases ha : readByte fb 0#6 = 0xC8#8
  swap
  · refine .inr (.inl ⟨by omega, ha, ?_⟩)
    simp only [validateFrame, bytesPresent_eq, hn, if_false, Config.fcAddr, ne_eq, ha, not_false_iff,
      if_true]
  by_cases h1 : LengthPasses fb tlen
  swap
  · refine .inr (.inr (.inl ⟨by omega, ha, h1, ?_⟩))
    have hlf : lengthGood (readByte fb 1#6).toNat tlen.toNat = false := by
      simpa only [Bool.not_eq_true] using mt hl.1 h1
    by_cases h2 : min tlen.toNat 64 < 2 <;>
      simp only [validateFrame, bytesPresent_eq, hn, if_false, Config.fcAddr, ne_eq, ha, not_true, h2,
        if_true, hlf, Bool.not_false]
  have h2 : ¬ min tlen.toNat 64 < 2 := by omega
  have hlt : lengthGood (readByte fb 1#6).toNat tlen.toNat = true := hl.2 h1
  by_cases h3 : ChecksumPasses fb tlen
  · refine .inr (.inr (.inr (.inr ⟨ha, h1, h3, ?_⟩)))
    have hct : checksumGood fb (readByte fb 1#6).toNat tlen.toNat = true := hc.2 h3
    simp only [validateFrame, bytesPresent_eq, hn, if_false, Config.fcAddr, ne_eq, ha, not_true, h2,
      hlt, hct, Bool.not_true, Bool.false_eq_true]
  · refine .inr (.inr (.inr (.inl ⟨ha, h1, h3, ?_⟩)))
    have hcf : checksumGood fb (readByte fb 1#6).toNat tlen.toNat = false := by
      simpa only [Bool.not_eq_true] using mt hc.1 h3
    simp only [validateFrame, bytesPresent_eq, hn, if_false, Config.fcAddr, ne_eq, ha, not_true, h2,
      hlt, hcf, Bool.not_true, Bool.false_eq_true, Bool.not_false, if_true]

/-- DECODE answers a next state whatever the validator finds. -/
theorem execDecode_cases (tlen : Byte) (nowv : Bool) (now : Word) (s : State) :
    (∃ c, validateFrame s.fb tlen = .reject c ∧ execDecode tlen nowv now s = .next (emit c .none [] s)) ∨
    (∃ v, validateFrame s.fb tlen = .accept v ∧ execDecode tlen nowv now s =
      .next (emit .valid .rcChannelsPacked [] (setInstance v nowv (storedTime nowv now) s))) := by
  unfold execDecode
  cases h : validateFrame s.fb tlen with
  | reject c => exact .inl ⟨c, rfl, rfl⟩
  | accept v => exact .inr ⟨v, rfl, rfl⟩

end Sys2Proof.Machine
end

