-- ==== Sys2Proof/Laws/Exec.lean ====
section
/-! SUPPORT. Everything an instruction can do, said once. -/

namespace Sys2Proof.Machine

/-- CRC answers a next state with no state written but the response (40_crc_engine.md R85). -/
theorem execCrc_cases (start : Addr) (len : BitVec 7) (s : State) :
    (start.toNat + len.toNat ≤ 64 ∧ execCrc start len s = .next
      (emit .ok .none [zext32 (crc8 (memRead s.fb start.toNat len.toNat))] s)) ∨
    (64 < start.toNat + len.toNat ∧ execCrc start len s = .next (emit .rangeError .none [] s)) := by
  unfold execCrc
  by_cases h : start.toNat + len.toNat ≤ 64
  · rw [if_pos ((crcRangeFits_iff ..).2 h)]; exact .inl ⟨h, rfl⟩
  · rw [if_neg fun e => h ((crcRangeFits_iff ..).1 e)]; exact .inr ⟨by omega, rfl⟩

/-- GETCH answers a next state with no state written but the response (42_channel_unpack.md R134). -/
theorem execGetch_cases (index : Byte) (s : State) :
    (∃ h : index.toNat < 16, execGetch index s = .next (emit .ok .none [zext32 s.ch[index.toNat]] s)) ∨
    (16 ≤ index.toNat ∧ execGetch index s = .next (emit .notFound .none [] s)) := by
  unfold execGetch
  by_cases h : index.toNat < 16
  · rw [dif_pos h]; exact .inl ⟨h, rfl⟩
  · rw [dif_neg h]; exact .inr ⟨by omega, rfl⟩

/-- An instruction answers a next state: a response emitted on the state as it was, on the state with the
instance state written (INIT, a valid DECODE), or on the state with one byte stored (WRBUF). -/
theorem exec_cases (i : Instr) (s : State) :
    (∃ c d, exec i s = .next (emit c .none d s)) ∨
    (i = .init ∧ exec i s =
      .next (emit .ok .none [] (setInstance (Vector.replicate 16 0#11) false 0#32 s))) ∨
    (∃ idx data, i = .wrbuf idx data ∧
      exec i s = .next (emit .ok .none [] (storeByte idx data s))) ∨
    (∃ tlen nowv now v, i = .decode tlen nowv now ∧ validateFrame s.fb tlen = .accept v ∧ exec i s =
      .next (emit .valid .rcChannelsPacked [] (setInstance v nowv (storedTime nowv now) s))) := by
  cases i with
  | init => exact .inr (.inl ⟨rfl, rfl⟩)
  | wrbuf idx data => exact .inr (.inr (.inl ⟨idx, data, rfl, rfl⟩))
  | crc start len =>
    obtain ⟨-, h⟩ | ⟨-, h⟩ := execCrc_cases start len s
    · exact .inl ⟨_, _, h⟩
    · exact .inl ⟨_, _, h⟩
  | decode tlen nowv now =>
    obtain ⟨c, -, h⟩ | ⟨v, hv, h⟩ := execDecode_cases tlen nowv now s
    · exact .inl ⟨c, [], h⟩
    · exact .inr (.inr (.inr ⟨tlen, nowv, now, v, rfl, hv, h⟩))
  | getch index =>
    obtain ⟨_, h⟩ | ⟨-, h⟩ := execGetch_cases index s
    · exact .inl ⟨_, _, h⟩
    · exact .inl ⟨_, _, h⟩
  | getall => exact .inl ⟨_, _, rfl⟩
  | getts => exact .inl ⟨_, _, rfl⟩
  | getbaud => exact .inl ⟨_, _, rfl⟩
  | illegal _ _ => exact .inl ⟨_, _, rfl⟩

/-- What is still on the command port is no matter of an instruction. -/
theorem exec_setInput (i : Instr) (r : List PortInput) (s t : State) (h : exec i s = .next t) :
    exec i (setInput r s) = .next (setInput r t) := by
  cases i with
  | init => cases h; rfl
  | wrbuf idx data => cases h; rfl
  | crc start len =>
    change execCrc start len s = _ at h
    change execCrc start len _ = _
    unfold execCrc at h ⊢
    by_cases hc : crcRangeFits start len = true
    · rw [if_pos hc] at h ⊢; cases h; rfl
    · rw [if_neg hc] at h ⊢; cases h; rfl
  | decode tlen nowv now =>
    change execDecode tlen nowv now s = _ at h
    change execDecode tlen nowv now _ = _
    unfold execDecode at h ⊢
    rw [setInput_fb]
    cases hv : validateFrame s.fb tlen with
    | reject c => rw [hv] at h; cases h; rfl
    | accept v => rw [hv] at h; cases h; rfl
  | getch index =>
    change execGetch index s = _ at h
    change execGetch index _ = _
    unfold execGetch at h ⊢
    by_cases hc : index.toNat < 16
    · rw [dif_pos hc] at h ⊢; cases h; rfl
    · rw [dif_neg hc] at h ⊢; cases h; rfl
  | getall => cases h; rfl
  | getts => cases h; rfl
  | getbaud => cases h; rfl
  | illegal _ _ => cases h; rfl

end Sys2Proof.Machine
end

