-- ==== Sys2Proof/Laws/PerInstr.lean ====
section
/-! SUPPORT. Facts of every instruction as syntax, one lemma per constructor. -/

namespace Sys2Proof.Laws.EncodedLength

/-- A well-formed instruction has one word, or two exactly where its first word has the DECODE opcode
(30_encoding.md R60). -/
def Statement (i : Instr) : Prop :=
  i.wellFormed = true → ∃ w more, encode i = w :: more ∧ more.length = if opc w = 0x4#4 then 1 else 0

theorem init : Statement .init := fun _ => ⟨_, _, rfl, by decide⟩

theorem wrbuf (idx : Addr) (data : Byte) : Statement (.wrbuf idx data) := fun _ => by
  refine ⟨_, _, rfl, ?_⟩
  have h : opc (field 0x2#4 28 ||| field idx 8 ||| field data 0) = 0x2#4 := by
    unfold opc; rw [slice_eq_iff]; intro j hj; interval_cases j <;> simp [field]
  rw [h]; rfl

theorem crc (start : Addr) (len : BitVec 7) : Statement (.crc start len) := fun _ => by
  refine ⟨_, _, rfl, ?_⟩
  have h : opc (field 0x3#4 28 ||| field len 8 ||| field start 0) = 0x3#4 := by
    unfold opc; rw [slice_eq_iff]; intro j hj; interval_cases j <;> simp [field]
  rw [h]; rfl

theorem decode (tlen : Byte) (nowv : Bool) (now : Word) : Statement (.decode tlen nowv now) := fun _ => by
  refine ⟨_, _, rfl, ?_⟩
  have h : opc (field 0x4#4 28 ||| field (BitVec.ofBool nowv) 8 ||| field tlen 0) = 0x4#4 := by
    unfold opc; rw [slice_eq_iff]; intro j hj; interval_cases j <;> simp [field]
  rw [h]; rfl

theorem getch (index : Byte) : Statement (.getch index) := fun _ => by
  refine ⟨_, _, rfl, ?_⟩
  have h : opc (field 0x5#4 28 ||| field index 0) = 0x5#4 := by
    unfold opc; rw [slice_eq_iff]; intro j hj; interval_cases j <;> simp [field]
  rw [h]; rfl

theorem getall : Statement .getall := fun _ => ⟨_, _, rfl, by decide⟩

theorem getts : Statement .getts := fun _ => ⟨_, _, rfl, by decide⟩

theorem getbaud : Statement .getbaud := fun _ => ⟨_, _, rfl, by decide⟩

theorem illegal (first : Word) (second : Option Word) : Statement (.illegal first second) := fun h => by
  refine ⟨first, second.toList, rfl, ?_⟩
  have hs : second.isSome = isTwoWord first := by
    simp only [Instr.wellFormed, Bool.and_eq_true, beq_iff_eq] at h
    exact h.2
  have ht := isTwoWord_iff first
  cases second with
  | none => simp only [Option.isSome_none] at hs; rw [if_neg (by simp [← ht, ← hs])]; rfl
  | some w => simp only [Option.isSome_some] at hs; rw [if_pos (ht.1 hs.symm)]; rfl

end Sys2Proof.Laws.EncodedLength
end

