-- ==== Sys2Proof/Laws/Step.lean ====
section
/-! SUPPORT. Everything a step can do, said once. -/

namespace Sys2Proof.Machine

/-- A step: nothing has arrived, reset is taken, the second word completes a held command, a DECODE first
word is held, or a one-word command runs (43_host_control.md R150). -/
theorem step_cases (s : State) :
    (s.input = [] ∧ step s = .next s) ∨
    (∃ rest, s.input = .reset :: rest ∧ step s = .next (takeReset rest)) ∨
    (∃ w rest, s.input = .word w :: rest ∧ s.pend = true ∧
      step s = exec (decodeTwoWords s.pendW0 w) (releaseFirstWord (setInput rest s))) ∨
    (∃ w rest, s.input = .word w :: rest ∧ s.pend = false ∧ isTwoWord w = true ∧
      step s = .next (holdFirstWord w (setInput rest s))) ∨
    (∃ w rest, s.input = .word w :: rest ∧ s.pend = false ∧ isTwoWord w = false ∧
      step s = exec (decodeOneWord w) (setInput rest s)) := by
  unfold step
  cases h : s.input with
  | nil => exact .inl ⟨rfl, rfl⟩
  | cons p rest =>
    cases p with
    | reset => exact .inr (.inl ⟨rest, rfl, rfl⟩)
    | word w =>
      refine .inr (.inr ?_)
      cases hp : s.pend with
      | true => exact .inl ⟨w, rest, rfl, rfl, by simp [takeWord, hp]⟩
      | false =>
        cases hw : isTwoWord w with
        | true => exact .inr (.inl ⟨w, rest, rfl, rfl, hw, by simp [takeWord, hp, hw]⟩)
        | false => exact .inr (.inr ⟨w, rest, rfl, rfl, hw, by simp [takeWord, hp, hw]⟩)

/-- A run of one more step is the step, then the run. -/
theorem run_succ (n : Nat) {s t : State} (h : step s = .next t) :
    Sys2Proof.core.run (n + 1) s = Sys2Proof.core.run n t := by
  have h' : Sys2Proof.core.step s = .next t := h
  simp only [Host.Core.run]
  rw [h']

theorem run_zero (s : State) : Sys2Proof.core.run 0 s = .next s := rfl

end Sys2Proof.Machine
end

