-- ==== Sys2Proof/Tests/Slice0.lean ====
section
/-! SUPPORT. The model's own tests. Every expected value is from 95_test_vectors.md (the vector is named) or is
written out by hand from a rule. `witness_<statement>` shows that a statement's hypotheses can be met, clause by
clause at the boundary values. -/

namespace Sys2Proof.Tests

open Sys2Proof.Machine Sys2Proof.Claims

/-- The state an answer gives; a model that stopped would give the reset state. -/
def after : Result → State
  | .next t => t
  | .fault r => nomatch r
  | .refused _ => State.reset

/-- The response words an answer has emitted, from a state with none. -/
def emitted (r : Result) : List Word := (after r).respOut

/-- Whether an answer is a next state. -/
def goesOn : Result → Bool
  | .next _ => true
  | .fault r => nomatch r
  | .refused _ => false

theorem next_of {r : Result} (h : goesOn r = true) : ∃ t, r = .next t := by
  cases r with
  | next t => exact ⟨t, rfl⟩
  | fault r => exact nomatch r
  | refused r => exact absurd h Bool.false_ne_true

theorem next_and {r : Result} (P : State → Prop) (h : goesOn r = true) (hp : P (after r)) :
    ∃ t, r = .next t ∧ P t := by
  cases r with
  | next t => exact ⟨t, rfl, hp⟩
  | fault r => exact nomatch r
  | refused r => exact absurd h Bool.false_ne_true

/-- A frame buffer that holds bytes from address 0 on. -/
def loaded (bytes : List Byte) : Memory :=
  bytes.zipIdx.foldl (fun m p => writeByte m (BitVec.ofNat 6 p.2) p.1) []

/-- Reset, but for the frame buffer. -/
def holding (bytes : List Byte) : State := { State.reset with fb := loaded bytes }

/-- A state with words waiting on the command port. -/
def waiting (ws : List Word) (s : State) : State := { s with input := ws.map .word }

/-- A DECODE first word is held, its second word waits. -/
def held (w0 w1 : Word) (s : State) : State := { waiting [w1] s with pend := true, pendW0 := w0 }

/-- Eleven bytes of F992's payload (V-L1). -/
def half992 : List Byte := [0xE0, 0x03, 0x1F, 0xF8, 0xC0, 0x07, 0x3E, 0xF0, 0x81, 0x0F, 0x7C]

/-- Frame F992 with another checksum byte (V-L1: 0xAD is the right one). -/
def f992With (crc : Byte) : List Byte := [0xC8, 0x18, 0x16] ++ half992 ++ half992 ++ [crc]

/-- The payload of V-U10 and program P5. -/
def payloadP5 : List Byte :=
  [0x00, 0x08, 0x80, 0x00, 0x08, 0x80, 0x00, 0x08, 0x80, 0x00, 0x08, 0x80, 0x00, 0x08, 0x80] ++
  [0x00, 0xF8, 0x7F, 0xF4, 0x71, 0x97, 0x15]

/-- The values of V-U10. -/
def valuesP5 : Vector Chan 16 := #v[0, 1, 2, 4, 8, 16, 32, 64, 128, 256, 512, 1024, 2047, 1000, 1500, 172]

/-- The frame of program P5. -/
def frameP5 : List Byte := [0xC8, 0x18, 0x16] ++ payloadP5 ++ [0xD1]

/-- The smallest frame, with another checksum byte (V-D14: 0x0B is the right one). -/
def smallest (crc : Byte) : List Byte := [0xC8, 0x05, 0x02, 0xAA, 0xBB, 0xCC, crc]

/-- The largest frames of V-D18 (0x02, checksum 0x83) and V-D19 (0x16, checksum 0xB6). -/
def largest (type crc : Byte) : List Byte := [0xC8, 0x3E, type] ++ List.replicate 60 0x00 ++ [crc]

/-- A state with channels and a time, as after V-D16. -/
def stored992 : State :=
  { holding (f992With 0xAD) with ch := Vector.replicate 16 992#11, lastTsValid := true, lastTs := 7#32 }

/-! ### Well-formedness: one ill-formed term for each check -/

theorem test_wf_illegal_with_legal_word : (Instr.illegal 0x10000000#32 none).wellFormed = false := by decide
theorem test_wf_illegal_decode_without_second :
    (Instr.illegal 0x40000200#32 none).wellFormed = false := by decide
theorem test_wf_illegal_one_word_with_second :
    (Instr.illegal 0x00000000#32 (some 0#32)).wellFormed = false := by decide
theorem test_wf_illegal_decode_with_second :
    (Instr.illegal 0x40000200#32 (some 0x60000000#32)).wellFormed = true := by decide

/-! ### Decoding: each format's fields written out bit by bit from 30_encoding.md R62, high bit first -/

theorem test_decode_init :
    decode [0b0001_0000000000000000000000000000#32] = .command .init [] := by decide
theorem test_decode_wrbuf :
    decode [0b0010_00000000000000_111010_10010110#32] =
      .command (.wrbuf 0b111010#6 0b10010110#8) [] := by decide
theorem test_decode_crc :
    decode [0b0011_0000000000000_1000001_00_100110#32] =
      .command (.crc 0b100110#6 0b1000001#7) [] := by decide
theorem test_decode_decode :
    decode [0b0100_0000000000000000000_1_00011010#32, 0x60000000#32, 7#32] =
      .command (.decode 0b00011010#8 true 0x60000000#32) [7#32] := by decide
theorem test_decode_getch :
    decode [0b0101_00000000000000000000_10000001#32] = .command (.getch 0b10000001#8) [] := by decide
theorem test_decode_getall :
    decode [0b0110_0000000000000000000000000000#32] = .command .getall [] := by decide
theorem test_decode_getts :
    decode [0b0111_0000000000000000000000000000#32] = .command .getts [] := by decide
theorem test_decode_getbaud :
    decode [0b1000_0000000000000000000000000000#32] = .command .getbaud [] := by decide
theorem test_decode_illegal_opcode :
    decode [0b1001_0000000000000000000000000000#32] = .command (.illegal 0x90000000#32 none) [] := by decide
/-- V-H06, V-K10, V-A06, V-H17: a must-be-zero bit in each format. -/
theorem test_decode_illegal_mbz :
    decode [0x20004000#32] = .command (.illegal 0x20004000#32 none) [] ∧
    decode [0x30010000#32] = .command (.illegal 0x30010000#32 none) [] ∧
    decode [0x50000100#32] = .command (.illegal 0x50000100#32 none) [] ∧
    decode [0x40000200#32, 0x60000000#32] =
      .command (.illegal 0x40000200#32 (some 0x60000000#32)) [] := by decide
theorem test_decode_rejects :
    decode [] = .rejected .noWord ∧ decode [0x4000001A#32] = .rejected .secondWordMissing := by decide
theorem test_encode_words :
    encode (.wrbuf 25#6 0xAD#8) = [0x200019AD#32] ∧ encode (.crc 60#6 5#7) = [0x3000053C#32] ∧
    encode (.decode 26#8 true 1000#32) = [0x4000011A#32, 0x000003E8#32] ∧
    encode (.getch 16#8) = [0x50000010#32] := by decide

/-! ### Instructions: at most two each -/

/-- V-H01: INIT clears the instance. -/
theorem test_init_clears :
    (after (exec .init stored992)).ch = Vector.replicate 16 0#11 ∧
    (after (exec .init stored992)).lastTsValid = false ∧
    emitted (exec .init stored992) = [0x00000000#32] := by decide
/-- V-H01: FB still holds F992. -/
theorem test_init_keeps_fb : (after (exec .init stored992)).fb = loaded (f992With 0xAD) := by decide +kernel
/-- V-H05: WRBUF 63, 0xFF through the sequencer. -/
theorem test_wrbuf_last_byte :
    (after (step (waiting [0x20003FFF#32] State.reset))).fb = [(63, 0xFF#8)] := by decide
/-- V-H07, then 0x00 over it: the last write wins, and a byte at its reset value is not listed. -/
theorem test_wrbuf_overwrites :
    (after (exec (.wrbuf 5#6 2#8) (holding [0, 0, 0, 0, 0, 1]))).fb = [(5, 2#8)] ∧
    (after (exec (.wrbuf 5#6 0#8) (holding [0, 0, 0, 0, 0, 1]))).fb = [] := by decide
/-- V-K05: the whole buffer. -/
theorem test_crc_whole_buffer :
    emitted (exec (.crc 0#6 64#7) (holding [0x31, 0x32, 0x33, 0x34, 0x35, 0x36, 0x37, 0x38, 0x39])) =
      [0x00000000#32, 0x00000057#32] := by decide +kernel
/-- V-K04 and V-K06: `START + LEN` at 64 and at 65. -/
theorem test_crc_range :
    emitted (exec (.crc 63#6 1#7) State.reset) = [0x00000000#32, 0x00000000#32] ∧
    emitted (exec (.crc 60#6 5#7) State.reset) = [0x00000006#32] := by decide
/-- P5: the frame of sixteen distinct values, time 0, on the second word. -/
theorem test_decode_p5 :
    let t := after (step (held 0x4000011A#32 0x00000000#32 (holding frameP5)))
    t.ch = valuesP5 ∧ t.lastTsValid = true ∧ t.lastTs = 0#32 ∧ t.respOut = [0x00001601#32] ∧
      t.pend = false := by decide +kernel
/-- V-D12 and V-D05: the checksum comes before the type, the address before the length. -/
theorem test_decode_order_of_checks :
    emitted (exec (.decode 26#8 true 7#32)
      { holding (f992With 0xAD) with fb := writeByte (loaded (f992With 0xAD)) 2#6 0x17#8 }) =
      [0x00000003#32] ∧
    emitted (exec (.decode 30#8 true 7#32)
      { holding (f992With 0xAD) with fb := writeByte (loaded (f992With 0xAD)) 0#6 0xEE#8 }) =
      [0x00000002#32] := by decide +kernel
/-- V-A03 and V-A04: index 15 and index 16. -/
theorem test_getch_range :
    emitted (exec (.getch 15#8) stored992) = [0x00000000#32, 0x000003E0#32] ∧
    emitted (exec (.getch 16#8) stored992) = [0x00000005#32] := by decide
/-- V-A08: the order of GETCH's registers is that of V-U10. -/
theorem test_getch_index :
    emitted (exec (.getch 13#8) { State.reset with ch := valuesP5 }) =
      [0x00000000#32, 0x000003E8#32] := by decide
/-- V-A08. -/
theorem test_getall :
    emitted (exec .getall { State.reset with ch := valuesP5 }) =
      [0, 0, 1, 2, 4, 8, 0x10, 0x20, 0x40, 0x80, 0x100, 0x200, 0x400, 0x7FF, 0x3E8, 0x5DC, 0xAC] := by
  decide
/-- V-H09 and V-H11: a time, and the time 0. -/
theorem test_getts :
    emitted (exec .getts stored992) = [0x00000000#32, 0x00000001#32, 0x00000007#32] ∧
    emitted (exec .getts { stored992 with lastTs := 0#32 }) =
      [0x00000000#32, 0x00000001#32, 0x00000000#32] := by decide
/-- V-H08: no time. -/
theorem test_getts_none :
    emitted (exec .getts State.reset) = [0x00000000#32, 0x00000000#32, 0x00000000#32] := by decide
/-- V-H12. -/
theorem test_getbaud :
    emitted (exec .getbaud State.reset) = [0x00000000#32, 0x000668A0#32] := by decide
/-- V-H14. -/
theorem test_illegal_zero :
    emitted (step (waiting [0x00000000#32] State.reset)) = [0x00000007#32] := by decide
/-- V-H17: the second word of an illegal DECODE is taken as `NOW`; GETALL does not run. -/
theorem test_illegal_decode_takes_second :
    let t := after (step (held 0x40000200#32 0x60000000#32 stored992))
    t = { stored992 with respOut := [0x00000007#32] } := by decide
/-- V-H18: reset with a DECODE first word held. -/
theorem test_reset_discards_held :
    after (step { stored992 with
      pend := true, pendW0 := 0x4000011A#32, input := [.reset], respOut := [7#32] }) =
      State.reset := by decide

/-! ### The datapath functions -/

/-- V-C08, V-C11, V-C18 and V-C23. -/
theorem test_crc8 :
    crc8 [0x31, 0x32, 0x33, 0x34, 0x35, 0x36, 0x37, 0x38, 0x39] = 0xBC#8 ∧ crc8 [0x01, 0x00] = 0x0B#8 ∧
    crc8 ([0x16] ++ half992 ++ half992) = 0xAD#8 ∧
    crc8 ([0x16] ++ List.replicate 60 0x00) = 0xB6#8 := by decide +kernel
/-- V-C11: the generating rule. -/
theorem test_gen : gen 0x01#8 = 0xD5#8 ∧ gen 0xD5#8 = 0x0B#8 ∧ crc8Serial [0x01, 0x00] = 0x0B#8 := by decide +kernel
/-- V-U13. -/
theorem test_unpack :
    unpack ((List.range 22).map (BitVec.ofNat 8)) =
      #v[0x100, 0x040, 0x00C, 0x282, 0x060, 0x00E, 0x242, 0x050, 0x40B, 0x1A1, 0x438, 0x007, 0x111,
         0x624, 0x504, 0x0A8] := by decide +kernel
/-- V-U13, by the other two descriptions. -/
theorem test_unpack_other_forms :
    unpackUnrolled ((List.range 22).map (BitVec.ofNat 8)) =
      #v[0x100, 0x040, 0x00C, 0x282, 0x060, 0x00E, 0x242, 0x050, 0x40B, 0x1A1, 0x438, 0x007, 0x111,
         0x624, 0x504, 0x0A8] ∧
    unpackGeneric ((List.range 22).map (BitVec.ofNat 8)) 11 =
      [0x100, 0x040, 0x00C, 0x282, 0x060, 0x00E, 0x242, 0x050, 0x40B, 0x1A1, 0x438, 0x007, 0x111,
       0x624, 0x504, 0x0A8] := by decide +kernel
/-- V-U10. -/
theorem test_pack : pack valuesP5 = payloadP5 := by decide +kernel
/-- P1 and P3, as text: the forms of R68 and the pseudo-instructions of R69. -/
theorem test_assembler_text :
    assembleText "FRAME 0xC8, 0x18 ; load\nDECODE 26, 1000\nFRAMECRC 26\n.word 0x300009C0".toList =
      some [0x200000C8#32, 0x20000118#32, 0x4000011A#32, 0x000003E8#32, 0x30001702#32,
        0x300009C0#32] := by decide +kernel
/-- V-K08: an operand outside its field is refused. -/
theorem test_assembler_refuses : assembleText "CRC 64, 0".toList = none := by decide +kernel
/-- A placed word runs as the first instruction after reset. -/
theorem test_placed_word :
    decodeTableWord 64 0x6000000040000200 = some (.illegal 0x40000200#32 (some 0x60000000#32)) ∧
    emitted (step (State.reset.withFetchWord 64 0x6000000040000200)) = [0x00000007#32] ∧
    emitted (step (State.reset.withFetchWord 32 0x80000000)) = [0x00000000#32, 0x000668A0#32] := by
  decide

/-! ### Witnesses: the hypotheses of the statements -/

theorem witness_DecodeGivesBackEncoded :
    Instr.wellFormed (.decode 255#8 true 0xFFFFFFFF#32) = true ∧
    Instr.wellFormed (.illegal 0xFFFFFFFF#32 none) = true := by decide

theorem witness_EncodeGivesBackDecoded :
    decode [0x20003FAB#32, 1#32] = .command (.wrbuf 63#6 0xAB#8) [1#32] := by decide

/-- Both lengths; the second word of the two, also after an illegal first word. -/
theorem witness_FirstWordTellsCommandLength :
    (0xF0000000#32).extractLsb' 28 4 ≠ 0x4#4 ∧ (0x40000200#32).extractLsb' 28 4 = 0x4#4 ∧
    decode [0x400000FF#32, 0xFFFFFFFF#32] = .command (.decode 255#8 false 0xFFFFFFFF#32) [] := by decide

/-- Both sides of each row's condition. -/
theorem witness_DecoderFollowsOpcodeMap :
    (0x20003FFF#32 &&& 0xFFFFC000#32 = 0x20000000#32) ∧ (0x20004000#32 &&& 0xFFFFC000#32 ≠ 0x20000000#32) ∧
    (0x30007F3F#32 &&& 0xFFFF80C0#32 = 0x30000000#32) ∧ (0x30000040#32 &&& 0xFFFF80C0#32 ≠ 0x30000000#32) ∧
    (0x400001FF#32 &&& 0xFFFFFE00#32 = 0x40000000#32) ∧ (0x40000200#32 &&& 0xFFFFFE00#32 ≠ 0x40000000#32) ∧
    (0x500000FF#32 &&& 0xFFFFFF00#32 = 0x50000000#32) ∧
    (0x50000100#32 &&& 0xFFFFFF00#32 ≠ 0x50000000#32) ∧
    (0x0FFFFFFF#32).extractLsb' 28 4 = 0x0#4 ∧ 9 ≤ ((0x90000000#32).extractLsb' 28 4).toNat := by decide

/-- One word of each class of illegal first words. -/
theorem witness_IllegalCommandsChangeNothing :
    State.reset.pend = false ∧
    (0x00000000#32).extractLsb' 28 4 = 0x0#4 ∧ 9 ≤ ((0x90000000#32).extractLsb' 28 4).toNat ∧
    ((0x80000001#32).extractLsb' 28 4 = 0x8#4 ∧ (0x80000001#32).extractLsb' 0 28 ≠ 0#28) ∧
    ((0x20004000#32).extractLsb' 28 4 = 0x2#4 ∧ (0x20004000#32).extractLsb' 14 14 ≠ 0#14) ∧
    ((0x30000080#32).extractLsb' 28 4 = 0x3#4 ∧ (0x30000080#32).extractLsb' 6 2 ≠ 0#2) ∧
    ((0x30008000#32).extractLsb' 28 4 = 0x3#4 ∧ (0x30008000#32).extractLsb' 15 13 ≠ 0#13) ∧
    ((0x50000100#32).extractLsb' 28 4 = 0x5#4 ∧ (0x50000100#32).extractLsb' 8 20 ≠ 0#20) ∧
    ((0x40000200#32).extractLsb' 28 4 = 0x4#4 ∧ (0x40000200#32).extractLsb' 9 19 ≠ 0#19) ∧
    (waiting [0x40000200#32, 0x60000000#32] State.reset).input =
      .word 0x40000200#32 :: .word 0x60000000#32 :: [] := by decide

/-- A held word of each kind, and nothing held with a word of each opcode that has a row, and one of none. -/
theorem witness_SequencerTakesOneWord :
    (held 0x40000200#32 5#32 State.reset).input = .word 5#32 :: [] ∧
    (held 0x40000200#32 5#32 State.reset).pendW0.extractLsb' 9 19 ≠ 0#19 ∧
    (held 0x400001FF#32 5#32 State.reset).pendW0.extractLsb' 9 19 = 0#19 ∧
    (held 0x400001FF#32 5#32 State.reset).pend = true ∧ State.reset.pend = false ∧
    [0x10000000#32, 0x20000000#32, 0x30000000#32, 0x40000000#32, 0x50000000#32, 0x60000000#32,
      0x70000000#32, 0x80000000#32, 0x90000000#32].map (·.extractLsb' 28 4) =
      [1#4, 2#4, 3#4, 4#4, 5#4, 6#4, 7#4, 8#4, 9#4] := by decide

theorem witness_StepRunsDecodedInstruction :
    (waiting [0x50000010#32] State.reset).pend = false ∧
    decode [0x50000010#32] = .command (.getch 16#8) [] ∧
    (held 0x4000011A#32 7#32 State.reset).pendW0.extractLsb' 28 4 = 0x4#4 ∧
    decode [(held 0x4000011A#32 7#32 State.reset).pendW0, 7#32] = .command (.decode 26#8 true 7#32) [] := by
  decide

theorem witness_NothingArrivedNothingChanges : State.reset.input = [] := by decide

theorem witness_ResetPutsEveryValue :
    (hostReset (held 0x4000011A#32 7#32 stored992)).input = [.word 7#32, .reset] ∧
    (hostReset stored992).input = .reset :: [] := by decide

theorem witness_WordAfterDecodeIsTheTime :
    (waiting [0x4000011A#32, 0x10000000#32] stored992).pend = false ∧
    (waiting [0x4000011A#32, 0x10000000#32] stored992).input =
      .word 0x4000011A#32 :: .word 0x10000000#32 :: [] ∧
    (0x4000011A#32).extractLsb' 28 4 = 0x4#4 ∧ (0x4000011A#32).extractLsb' 9 19 = 0#19 ∧
    (0x4FFFFE00#32).extractLsb' 28 4 = 0x4#4 ∧ (0x4FFFFE00#32).extractLsb' 9 19 ≠ 0#19 := by decide

/-- A list with a command of one word, one of two and an illegal one of two. -/
theorem witness_CommandsRunInArrivalOrder :
    let is : List Instr := [.init, .decode 26#8 true 1000#32, .illegal 0x40000200#32 (some 0#32)]
    (∀ i ∈ is, i.wellFormed = true) ∧ stored992.pend = false ∧ stored992.pendW0 = 0#32 ∧
    (waiting [0x10000000#32, 0x4000011A#32, 0x000003E8#32, 0x40000200#32, 0#32] stored992).input =
      (is.flatMap encode).map PortInput.word ++ [] := by decide

/-- Every CODE the statement names. -/
theorem witness_EveryCommandAnswersOnce :
    (∃ t, exec .init stored992 = .next t) ∧ (∃ t, exec (.wrbuf 63#6 1#8) stored992 = .next t) ∧
    (∃ t, exec (.crc 63#6 1#7) stored992 = .next t) ∧ (∃ t, exec (.crc 63#6 2#7) stored992 = .next t) ∧
    (∃ t, exec (.decode 26#8 true 7#32) stored992 = .next t) ∧
    (∃ t, exec (.getch 15#8) stored992 = .next t) ∧ (∃ t, exec (.getch 16#8) stored992 = .next t) ∧
    (∃ t, exec .getall stored992 = .next t) ∧ (∃ t, exec .getts stored992 = .next t) ∧
    (∃ t, exec .getbaud stored992 = .next t) ∧
    ∃ t, exec (.illegal 0#32 none) stored992 = .next t :=
  ⟨next_of (by decide +kernel), next_of (by decide +kernel), next_of (by decide +kernel), next_of (by decide +kernel), next_of (by decide +kernel), next_of (by decide +kernel), next_of (by decide +kernel), next_of (by decide +kernel), next_of (by decide +kernel), next_of (by decide +kernel),
    next_of (by decide +kernel)⟩

theorem witness_PlacedWordsRunNext :
    decodeTableWord 32 0x4000011A = some (.decode 26#8 true 0#32) ∧
    decodeTableWord 64 0x000003E84000011A = some (.decode 26#8 true 1000#32) ∧
    decodeTableWord 32 0x500000FF = some (.getch 255#8) := by decide

/-- With a DECODE first word held and a frame in the buffer. -/
theorem witness_StepKeepsTheInvariant :
    (held 0x4000001A#32 9#32 stored992).Inv ∧
    ∃ t, step (held 0x4000001A#32 9#32 stored992) = .next t := ⟨by decide +kernel, next_of (by decide +kernel)⟩

theorem witness_ReachableStatesMeetTheInvariant :
    Reachable (hostTake 1 (hostReset (hostSend [0x4000011A#32] State.reset))) :=
  .take 1 (.assertReset (.send _ .reset))

/-- Each of the three ways: nothing written, reset or INIT, a VALID DECODE. -/
theorem witness_InstanceStateWrittenTwoWays :
    (∃ t, step (waiting [0x60000000#32] stored992) = .next t ∧ t.ch = stored992.ch) ∧
    (∃ t, step (hostReset stored992) = .next t ∧ t.ch ≠ stored992.ch) ∧
    (∃ t, step (waiting [0x10000000#32] stored992) = .next t ∧ t.ch ≠ stored992.ch) ∧
    ∃ t, step (held 0x4000011A#32 9#32 (holding (f992With 0xAD))) = .next t ∧ t.ch = stored992.ch :=
  ⟨next_and _ (by decide +kernel) (by decide +kernel), next_and _ (by decide +kernel) (by decide +kernel), next_and _ (by decide +kernel) (by decide +kernel), next_and _ (by decide +kernel) (by decide +kernel)⟩

theorem witness_FrameBufferWrittenByWrbufOnly :
    (∃ t, step (waiting [0x20003FFF#32] stored992) = .next t ∧ readByte t.fb 63#6 = 0xFF#8) ∧
    ∃ t, step (hostReset stored992) = .next t ∧ readByte t.fb 0#6 = 0x00#8 :=
  ⟨next_and _ (by decide +kernel) (by decide +kernel), next_and _ (by decide +kernel) (by decide +kernel)⟩

theorem witness_QueriesChangeNothingAndRepeat :
    (∃ t, exec (.decode 26#8 true 7#32) stored992 = .next t ∧ t.respOut = [] ++ [0x00001601#32]) ∧
    ∃ t, exec (.decode 25#8 true 7#32) stored992 = .next t ∧ t.respOut = [] ++ [0x00000003#32] :=
  ⟨next_and _ (by decide +kernel) (by decide +kernel), next_and _ (by decide +kernel) (by decide +kernel)⟩

/-- For GETCH also other channels that agree on the one it reads, 15, and with an index past them, 16. -/
theorem witness_ChannelsReadByAccessorsOnly :
    Instr.getts ≠ .getall ∧ (∀ k, Instr.getts ≠ .getch k) ∧ (∃ t, exec .getts stored992 = .next t) ∧
    (∃ t, exec (.getch 15#8) stored992 = .next t) ∧ (∃ t, exec (.getch 16#8) stored992 = .next t) ∧
    (∀ n : Fin 16, n.val = (15#8).toNat → (State.reset.ch.set 15 992#11)[n] = stored992.ch[n]) ∧
    ∃ t, exec .getall stored992 = .next t :=
  ⟨by decide, fun _ => Instr.noConfusion, next_of (by decide +kernel), next_of (by decide +kernel),
    next_of (by decide +kernel), by decide +kernel, next_of (by decide +kernel)⟩

/-- The hypotheses of `OneWordCommand`: for each row a word its mask takes and one it does not. -/
theorem witness_OneWordCommand :
    (waiting [0x10000000#32] State.reset).pend = false ∧
    (waiting [0x10000000#32] State.reset).input = .word 0x10000000#32 :: [] ∧
    ((0x10000000#32).extractLsb' 28 4 = 1#4 ∧ (0x10000001#32).extractLsb' 28 4 = 1#4 ∧
      0x10000001#32 &&& 0xFFFFFFFF#32 ≠ 0x10000000#32) ∧
    ((0x20003FFF#32).extractLsb' 28 4 = 2#4 ∧ 0x20003FFF#32 &&& 0xFFFFC000#32 = 0x20000000#32 ∧
      (0x20004000#32).extractLsb' 28 4 = 2#4 ∧ 0x20004000#32 &&& 0xFFFFC000#32 ≠ 0x20000000#32) ∧
    ((0x30007F3F#32).extractLsb' 28 4 = 3#4 ∧ 0x30007F3F#32 &&& 0xFFFF80C0#32 = 0x30000000#32 ∧
      (0x300009C0#32).extractLsb' 28 4 = 3#4 ∧ 0x300009C0#32 &&& 0xFFFF80C0#32 ≠ 0x30000000#32) ∧
    ((0x500000FF#32).extractLsb' 28 4 = 5#4 ∧ 0x500000FF#32 &&& 0xFFFFFF00#32 = 0x50000000#32 ∧
      (0x50000100#32).extractLsb' 28 4 = 5#4 ∧ 0x50000100#32 &&& 0xFFFFFF00#32 ≠ 0x50000000#32) ∧
    ((0x60000001#32).extractLsb' 28 4 = 6#4 ∧ 0x60000001#32 &&& 0xFFFFFFFF#32 ≠ 0x60000000#32) ∧
    ((0x70000000#32).extractLsb' 28 4 = 7#4 ∧ (0x78000000#32).extractLsb' 28 4 = 7#4) ∧
    ((0x80000000#32).extractLsb' 28 4 = 8#4 ∧ (0x80000001#32).extractLsb' 28 4 = 8#4) := by decide

theorem witness_InitIsResetButForTheBuffer : PendInv stored992 ∧ stored992.pend = false := by decide

theorem witness_GetchAnswersOneChannel : (15#8).toNat < 16 ∧ 16 ≤ (16#8).toNat := by decide

theorem witness_CrcAnswersTheChecksum :
    (63#6).toNat + (1#7).toNat ≤ 64 ∧ (0#6).toNat + (64#7).toNat ≤ 64 ∧
    64 < (60#6).toNat + (5#7).toNat := by decide

theorem witness_CrcIsLinear : ([0x01#8, 0x00#8]).length = ([0x00#8, 0x01#8]).length := by decide

theorem witness_OneNonzeroByteIsSeen : (0x80#8) ≠ 0x00#8 := by decide

/-- V-D02, V-D04, and V-D03 for the other clause. -/
theorem witness_WrongAddressIsAddressError :
    1 ≤ (1#8).toNat ∧ readByte (holding []).fb 0#6 ≠ 0xC8#8 ∧ 1 ≤ (255#8).toNat ∧
    readByte stored992.fb 0#6 = 0xC8#8 := by decide

/-- V-D06, V-D07 and V-D08, one for each of the three conditions, and the two responses of the last clause. -/
theorem witness_BadLengthIsPayloadError :
    (readByte (holding [0xC8, 0x04, 0x02]).fb 0#6 = 0xC8#8 ∧
      (readByte (holding [0xC8, 0x04, 0x02]).fb 1#6).toNat < 5) ∧
    (readByte (holding [0xC8, 0x3F]).fb 0#6 = 0xC8#8 ∧ 64 < (65#8).toNat) ∧
    (readByte stored992.fb 0#6 = 0xC8#8 ∧
      ((readByte stored992.fb 1#6).toNat : Int) ≠ ((25#8).toNat : Int) - 2) ∧
    emitted (exec (.decode 7#8 true 7#32) (holding (smallest 0x0B))) = [0x00000004#32] ∧
    emitted (exec (.decode 64#8 true 7#32) (holding (largest 0x02 0x83))) = [0x00000004#32] ∧
    emitted (exec (.decode 26#8 true 7#32) stored992) = [0x00001601#32] := by decide +kernel

/-- V-D25 and V-D10. -/
theorem witness_BadChecksumIsPayloadError :
    (HeaderGood (loaded (smallest 0x0C)) 7#8 ∧ ¬CrcGood (loaded (smallest 0x0C)) 7#8) ∧
    (HeaderGood (loaded (f992With 0xAC)) 26#8 ∧ ¬CrcGood (loaded (f992With 0xAC)) 26#8) := by
  unfold HeaderGood CrcGood; decide +kernel

/-- V-D14 and V-D18: the smallest frame and the largest. -/
theorem witness_OtherTypesAreUnsupported :
    (HeaderGood (loaded (smallest 0x0B)) 7#8 ∧ CrcGood (loaded (smallest 0x0B)) 7#8 ∧
      readByte (loaded (smallest 0x0B)) 2#6 ≠ 0x16#8) ∧
    (HeaderGood (loaded (largest 0x02 0x83)) 64#8 ∧ CrcGood (loaded (largest 0x02 0x83)) 64#8 ∧
      readByte (loaded (largest 0x02 0x83)) 2#6 ≠ 0x16#8) := by
  unfold HeaderGood CrcGood; decide +kernel

/-- V-D15 and V-D19, and V-D16 for the last clause. -/
theorem witness_ValidNeedsTwentyTwoBytes :
    (HeaderGood (loaded [0xC8, 0x06, 0x16, 0x01, 0x02, 0x03, 0x04, 0x88]) 8#8 ∧
      CrcGood (loaded [0xC8, 0x06, 0x16, 0x01, 0x02, 0x03, 0x04, 0x88]) 8#8 ∧
      ((readByte (loaded [0xC8, 0x06, 0x16, 0x01, 0x02, 0x03, 0x04, 0x88]) 1#6).toNat : Int) - 2 ≠ 22) ∧
    (HeaderGood (loaded (largest 0x16 0xB6)) 64#8 ∧ CrcGood (loaded (largest 0x16 0xB6)) 64#8 ∧
      ((readByte (loaded (largest 0x16 0xB6)) 1#6).toNat : Int) - 2 ≠ 22) ∧
    emitted (exec (.decode 26#8 false 9#32) stored992) = [0x00001601#32] := by
  unfold HeaderGood CrcGood; decide +kernel

/-- V-D16. -/
theorem witness_ValidFrameCommitsChannelsAndTime :
    HeaderGood (loaded (f992With 0xAD)) 26#8 ∧ CrcGood (loaded (f992With 0xAD)) 26#8 ∧
    readByte (loaded (f992With 0xAD)) 2#6 = 0x16#8 := by
  unfold HeaderGood CrcGood; decide +kernel

/-- V-D16 and V-D10, and an illegal command. -/
theorem witness_FailedDecodeWritesNothing :
    (∃ t, exec (.decode 26#8 true 7#32) stored992 = .next t ∧ t.respOut = [0x00001601#32]) ∧
    (∃ t, exec (.decode 26#8 true 7#32) (holding (f992With 0xAC)) = .next t ∧
      t.respOut = [0x00000003#32]) ∧
    ∃ t, exec (.illegal 0#32 none) stored992 = .next t :=
  ⟨next_and _ (by decide +kernel) (by decide +kernel), next_and _ (by decide +kernel) (by decide +kernel), next_of (by decide +kernel)⟩

/-- Two states that agree on the first 26 bytes only. -/
theorem witness_DecodeReadsOnlyPresentBytes :
    let s := stored992
    let s' := holding (f992With 0xAD ++ List.replicate 38 0xFF)
    (∀ a : Addr, a.toNat < min (26#8).toNat 64 → readByte s.fb a = readByte s'.fb a) ∧
    readByte s.fb 26#6 ≠ readByte s'.fb 26#6 ∧ s.ch ≠ s'.ch ∧
    emitted (exec (.decode 26#8 true 7#32) s') = [0x00001601#32] := by decide +kernel

/-- The boundary values of TLEN, each with the response it gives (V-D01, V-D03, V-D14, V-D18, V-D07). -/
theorem witness_OutcomesByTotalLength :
    emitted (exec (.decode 0#8 true 7#32) stored992) = [0x00000003#32] ∧
    emitted (exec (.decode 1#8 true 7#32) stored992) = [0x00000003#32] ∧
    emitted (exec (.decode 6#8 true 7#32) (holding [0xC8, 0x04, 0x02])) = [0x00000003#32] ∧
    emitted (exec (.decode 7#8 true 7#32) (holding (smallest 0x0B))) = [0x00000004#32] ∧
    emitted (exec (.decode 64#8 true 7#32) (holding (largest 0x16 0xB6))) = [0x00000003#32] ∧
    emitted (exec (.decode 65#8 true 7#32) (holding [0xC8, 0x3F])) = [0x00000003#32] ∧
    emitted (exec (.decode 100#8 true 7#32) State.reset) = [0x00000002#32] := by decide +kernel

/-- The hypotheses with each error cause the first to hold, and none, in R172's order; each response as the
vectors give it (V-D29, V-D01, V-D02, V-D03, V-D08, V-D10, V-D14, V-D15, V-D16). -/
theorem witness_FirstFailingCheckAnswers :
    (held 0x4000021A#32 7#32 stored992).pend = true ∧
    (held 0x4000021A#32 7#32 stored992).input = .word 7#32 :: [] ∧
    emitted (step (held 0x4000021A#32 7#32 stored992)) = [0x00000007#32] ∧
    emitted (step (held 0x40000100#32 7#32 stored992)) = [0x00000003#32] ∧
    emitted (step (held 0x40000101#32 7#32 State.reset)) = [0x00000002#32] ∧
    emitted (step (held 0x40000101#32 7#32 (holding [0xC8]))) = [0x00000003#32] ∧
    emitted (step (held 0x40000119#32 7#32 stored992)) = [0x00000003#32] ∧
    emitted (step (held 0x4000011A#32 7#32 (holding (f992With 0xAC)))) = [0x00000003#32] ∧
    emitted (step (held 0x40000107#32 7#32 (holding (smallest 0x0B)))) = [0x00000004#32] ∧
    emitted (step (held 0x40000108#32 7#32
      (holding [0xC8, 0x06, 0x16, 0x01, 0x02, 0x03, 0x04, 0x88]))) = [0x00000003#32] ∧
    emitted (step (held 0x4000011A#32 7#32 stored992)) = [0x00001601#32] := by decide +kernel

/-- The first byte the checksum covers and the checksum byte itself. -/
theorem witness_EveryOneByteChangeIsCaught :
    HeaderGood stored992.fb 26#8 ∧ CrcGood stored992.fb 26#8 ∧
    (2 ≤ (2#6).toNat ∧ (2#6).toNat < (26#8).toNat ∧ 0x17#8 ≠ readByte stored992.fb 2#6) ∧
    (2 ≤ (25#6).toNat ∧ (25#6).toNat < (26#8).toNat ∧ 0x2D#8 ≠ readByte stored992.fb 25#6) := by
  unfold HeaderGood CrcGood; decide +kernel

/-- UnpackFollowsTheBitStream, UnrolledFormEqualsUnpack, CursorFormEqualsUnpack and PackUnpackRoundTrip ask
for 22 bytes. -/
theorem witness_payload_has_22_bytes : payloadP5.length = 22 ∧ 10 < 11 := by decide

theorem witness_PackedFrameDecodesToItsValues :
    bytesFrom (holding frameP5).fb 0 26 =
      [0xC8#8, 0x18#8, 0x16#8] ++ pack valuesP5 ++ [crc8 (0x16#8 :: pack valuesP5)] := by decide +kernel

/-- An operand just outside its field, in each form that has one. -/
theorem witness_AssemblerEncodesEveryForm :
    assemble (.wrbuf 63 255) ≠ none ∧ assemble (.wrbuf 64 0) = none ∧ assemble (.wrbuf 0 256) = none ∧
    assemble (.crc 63 127) ≠ none ∧ assemble (.crc 64 0) = none ∧ assemble (.crc 0 128) = none ∧
    assemble (.decode 255 none) ≠ none ∧ assemble (.decode 256 none) = none ∧
    assemble (.decode 0 (some (2 ^ 32))) = none ∧ assemble (.getch 256) = none ∧
    assemble (.word (2 ^ 32)) = none := by decide

/-- LOAD that ends at the last byte, one that goes past it, and FRAMECRC at the ends of its range. -/
theorem witness_LoadPutsEveryByte :
    assemble (.load 62 0xAB [0xCD]) = some [0x20003EAB#32, 0x20003FCD#32] ∧
    assemble (.load 63 0xAB [0xCD]) = none ∧ assemble (.load 62 0xAB [256]) = none ∧
    (waiting [0x20003EAB#32, 0x20003FCD#32] stored992).pend = false ∧
    assemble (.frameCrc 3) = some [0x30000002#32] ∧ assemble (.frameCrc 64) = some [0x30003D02#32] ∧
    assemble (.frameCrc 2) = none ∧ assemble (.frameCrc 65) = none := by decide

end Sys2Proof.Tests
end

section
/-! PROOFS. The statements of 10_state.md: who reads and who writes the channels, the timestamp and the
frame buffer, and the invariant that every step keeps. -/

namespace Sys2Proof.Machine

/-! ### Decoding, said as the cases of its answer -/

/-- Opcode 0x4 alone is no one-word command. -/
theorem decodeOneWord_twoWord {w : Word} (h : opc w = 0x4#4) : decodeOneWord w = .illegal w none := by
  unfold decodeOneWord
  rw [h]
  rfl

/-- Everything the decoder can make of a one-word command (30_encoding.md R64). -/
theorem decodeOneWord_cases (w : Word) :
    (w = 0x10000000#32 ∧ decodeOneWord w = .init) ∨
    (w &&& 0xFFFFC000#32 = 0x20000000#32 ∧
      decodeOneWord w = .wrbuf (w.extractLsb' 8 6) (w.extractLsb' 0 8)) ∨
    (w &&& 0xFFFF80C0#32 = 0x30000000#32 ∧
      decodeOneWord w = .crc (w.extractLsb' 0 6) (w.extractLsb' 8 7)) ∨
    (w &&& 0xFFFFFF00#32 = 0x50000000#32 ∧ decodeOneWord w = .getch (w.extractLsb' 0 8)) ∨
    (w = 0x60000000#32 ∧ decodeOneWord w = .getall) ∨
    (w = 0x70000000#32 ∧ decodeOneWord w = .getts) ∨
    (w = 0x80000000#32 ∧ decodeOneWord w = .getbaud) ∨
    decodeOneWord w = .illegal w none := by
  rw [← and_allOnes_eq w 0x10000000#32, ← and_allOnes_eq w 0x60000000#32,
    ← and_allOnes_eq w 0x70000000#32, ← and_allOnes_eq w 0x80000000#32, selects_init_iff,
    selects_wrbuf_iff, selects_crc_iff, selects_getch_iff, selects_getall_iff, selects_getts_iff,
    selects_getbaud_iff]
  obtain h | h | h | h | h | h | h | h | h := opc_cases w
  · rw [decodeOneWord_init h]; split <;> simp [*]
  · rw [decodeOneWord_wrbuf h]; split <;> simp [*]
  · rw [decodeOneWord_crc h]; split <;> simp [*]
  · simp [decodeOneWord_twoWord h]
  · rw [decodeOneWord_getch h]; split <;> simp [*]
  · rw [decodeOneWord_getall h]; split <;> simp [*]
  · rw [decodeOneWord_getts h]; split <;> simp [*]
  · rw [decodeOneWord_getbaud h]; split <;> simp [*]
  · simp [decodeOneWord_otherOpcode h]

/-- A two-word command is DECODE or illegal, by its first word alone. -/
theorem decodeTwoWords_cases (w0 w1 : Word) :
    decodeTwoWords w0 w1 = .decode (w0.extractLsb' 0 8) (w0.getLsbD 8) w1 ∨
    decodeTwoWords w0 w1 = .illegal w0 (some w1) :=
  ite_eq_or_eq ..

/-! ### What a step makes of the state, case by case -/

/-- The ways in which a step turns `s` into the next state, each with what was taken from the port. -/
inductive StepEffect (s : State) : State → Prop where
  /-- Nothing has arrived. -/
  | idle : s.input = [] → StepEffect s s
  /-- Reset is taken. -/
  | reset {rest : List PortInput} : s.input = .reset :: rest → StepEffect s (takeReset rest)
  /-- A DECODE first word is held. -/
  | held {w : Word} {rest : List PortInput} : s.input = .word w :: rest → s.pend = false →
      opc w = 0x4#4 → StepEffect s (holdFirstWord w (setInput rest s))
  /-- INIT. -/
  | init {rest : List PortInput} : s.input = .word 0x10000000#32 :: rest → s.pend = false →
      StepEffect s (emit .ok .none [] (setInstance (Vector.replicate 16 0#11) false 0#32 (setInput rest s)))
  /-- WRBUF. -/
  | stored {w : Word} {rest : List PortInput} : s.input = .word w :: rest → s.pend = false →
      w &&& 0xFFFFC000#32 = 0x20000000#32 →
      StepEffect s (emit .ok .none [] (storeByte (w.extractLsb' 8 6) (w.extractLsb' 0 8) (setInput rest s)))
  /-- Every other one-word command: it only answers. -/
  | answered {w : Word} {rest : List PortInput} (c : Code) (d : List Word) :
      s.input = .word w :: rest → s.pend = false → w ≠ 0x10000000#32 →
      StepEffect s (emit c .none d (setInput rest s))
  /-- The second word of a DECODE that responds VALID. -/
  | decoded {w : Word} {rest : List PortInput} (v : Vector Chan 16) : s.input = .word w :: rest →
      s.pend = true → validateFrame s.fb (s.pendW0.extractLsb' 0 8) = .accept v →
      StepEffect s (emit .valid .rcChannelsPacked [] (setInstance v (s.pendW0.getLsbD 8)
        (storedTime (s.pendW0.getLsbD 8) w) (releaseFirstWord (setInput rest s))))
  /-- The second word of a DECODE that fails or is illegal. -/
  | failed {w : Word} {rest : List PortInput} (c : Code) (d : List Word) : s.input = .word w :: rest →
      s.pend = true → StepEffect s (emit c .none d (releaseFirstWord (setInput rest s)))

/-- The second word of a held command. -/
theorem StepEffect.of_secondWord {s t : State} {w : Word} {rest : List PortInput}
    (hin : s.input = .word w :: rest) (hp : s.pend = true)
    (h : exec (decodeTwoWords s.pendW0 w) (releaseFirstWord (setInput rest s)) = .next t) :
    StepEffect s t := by
  obtain hd | hd := decodeTwoWords_cases s.pendW0 w <;> rw [hd] at h
  · obtain ⟨c, -, he⟩ | ⟨v, hv, he⟩ := execDecode_cases (s.pendW0.extractLsb' 0 8)
      (s.pendW0.getLsbD 8) w (releaseFirstWord (setInput rest s))
    · cases he.symm.trans h
      exact .failed c [] hin hp
    · cases he.symm.trans h
      exact .decoded v hin hp hv
  · cases h
    exact .failed .illegalCmd [] hin hp

/-- A one-word command. -/
theorem StepEffect.of_oneWord {s t : State} {w : Word} {rest : List PortInput}
    (hin : s.input = .word w :: rest) (hp : s.pend = false)
    (h : exec (decodeOneWord w) (setInput rest s) = .next t) : StepEffect s t := by
  have only_answers (hi : decodeOneWord w ≠ .init) (hw : ∀ a x, decodeOneWord w ≠ .wrbuf a x)
      (hd : ∀ n b x, decodeOneWord w ≠ .decode n b x) : StepEffect s t := by
    obtain ⟨c, d, he⟩ | ⟨e, -⟩ | ⟨a, x, e, -⟩ | ⟨n, b, x, -, e, -⟩ :=
      exec_cases (decodeOneWord w) (setInput rest s)
    · cases he.symm.trans h
      exact .answered c d hin hp fun e => hi (by rw [e]; rfl)
    · exact absurd e hi
    · exact absurd e (hw a x)
    · exact absurd e (hd n b x)
  obtain ⟨rfl, hi⟩ | ⟨hm, hw⟩ | ⟨-, hi⟩ | ⟨-, hi⟩ | ⟨-, hi⟩ | ⟨-, hi⟩ | ⟨-, hi⟩ | hi :=
    decodeOneWord_cases w
  · rw [hi] at h
    cases h
    exact .init hin hp
  · rw [hw] at h
    cases h
    exact .stored hin hp hm
  all_goals exact only_answers (by simp [hi]) (by simp [hi]) (by simp [hi])

/-- Every step is one of the ways of `StepEffect` (43_host_control.md R150). -/
theorem step_effect {s t : State} (h : step s = .next t) : StepEffect s t := by
  obtain ⟨hin, hs⟩ | ⟨rest, hin, hs⟩ | ⟨w, rest, hin, hp, hs⟩ | ⟨w, rest, hin, hp, hw, hs⟩ |
    ⟨w, rest, hin, hp, -, hs⟩ := step_cases s <;> rw [hs] at h
  · cases h
    exact .idle hin
  · cases h
    exact .reset hin
  · exact .of_secondWord hin hp h
  · cases h
    exact .held hin hp ((isTwoWord_iff w).1 hw)
  · exact .of_oneWord hin hp h

/-! ### The invariant under each operation on the state -/

section Invariant

variable {s : State}

theorem reset_inv : State.reset.Inv :=
  ⟨fun _ => rfl, ⟨fun h => Bool.noConfusion h, fun _ => rfl⟩, rfl⟩

theorem takeReset_inv (rest : List PortInput) : (takeReset rest).Inv := reset_inv

theorem emit_inv {c : Code} {ft : FrameType} {d : List Word} (h : s.Inv) : (emit c ft d s).Inv := h

theorem setInput_inv {rest : List PortInput} (h : s.Inv) : (setInput rest s).Inv := h

/-- Channels and timestamp may take every value that has no time where it has no valid time (R24). -/
theorem setInstance_inv {v : Vector Chan 16} {b : Bool} {ts : Word} (hts : b = false → ts = 0#32)
    (h : s.Inv) : (setInstance v b ts s).Inv := ⟨hts, h.2⟩

theorem storeByte_inv {a : Addr} {x : Byte} (h : s.Inv) : (storeByte a x s).Inv := by
  obtain ⟨hts, hpend, hfb⟩ := h
  exact ⟨hts, hpend, writeByte_wf a x hfb⟩

theorem holdFirstWord_inv {w : Word} (hw : opc w = 0x4#4) (h : s.Inv) : (holdFirstWord w s).Inv := by
  obtain ⟨hts, -, hfb⟩ := h
  exact ⟨hts, ⟨fun _ => hw, fun h => Bool.noConfusion h⟩, hfb⟩

theorem releaseFirstWord_inv (h : s.Inv) : (releaseFirstWord s).Inv := by
  obtain ⟨hts, -, hfb⟩ := h
  exact ⟨hts, ⟨fun h => Bool.noConfusion h, fun _ => rfl⟩, hfb⟩

theorem storedTime_false {now : Word} {b : Bool} (h : b = false) : storedTime b now = 0#32 := by
  rw [h]; rfl

theorem step_inv {t : State} (hs : s.Inv) (h : step s = .next t) : t.Inv := by
  cases step_effect h with
  | idle => exact hs
  | reset => exact takeReset_inv _
  | held _ _ hw => exact holdFirstWord_inv hw (setInput_inv hs)
  | init => exact emit_inv (setInstance_inv (fun _ => rfl) (setInput_inv hs))
  | stored => exact emit_inv (storeByte_inv (setInput_inv hs))
  | answered => exact emit_inv (setInput_inv hs)
  | decoded => exact emit_inv (setInstance_inv storedTime_false (releaseFirstWord_inv (setInput_inv hs)))
  | failed => exact emit_inv (releaseFirstWord_inv (setInput_inv hs))

theorem hostSend_inv (ws : List Word) (h : s.Inv) : (hostSend ws s).Inv := h

theorem hostReset_inv (h : s.Inv) : (hostReset s).Inv := h

theorem hostTake_inv (n : Nat) (h : s.Inv) : (hostTake n s).Inv := h

theorem Reachable.inv (h : Reachable s) : s.Inv := by
  induction h with
  | reset => exact reset_inv
  | step _ hstep ih => exact step_inv ih hstep
  | send ws _ ih => exact hostSend_inv ws ih
  | assertReset _ ih => exact hostReset_inv ih
  | take n _ ih => exact hostTake_inv n ih

end Invariant

/-! ### The unpacked payload, bit by bit -/

/-- A byte list read as a number, bit by bit (42_channel_unpack.md R130). -/
theorem packedNat_testBit (p : List Byte) (n : Nat) :
    (packedNat p).testBit n = (p.getD (n / 8) 0#8).getLsbD (n % 8) := by
  induction p generalizing n with
  | nil => simp [packedNat]
  | cons b r ih =>
    have hsum : packedNat (b :: r) = 2 ^ 8 * packedNat r + b.toNat := by
      rw [packedNat, Nat.shiftLeft_eq]; omega
    rw [hsum, Nat.testBit_two_pow_mul_add _ b.isLt]
    by_cases hn : n < 8
    · rw [if_pos hn, Nat.div_eq_of_lt hn, Nat.mod_eq_of_lt hn]; rfl
    · obtain ⟨m, rfl⟩ : ∃ m, n = m + 8 := ⟨n - 8, by omega⟩
      rw [if_neg hn, Nat.add_sub_cancel, ih, Nat.add_mod_right, Nat.add_div_right m (by decide)]; rfl

/-- Bit `j` of a lane is bit `11 i + j` of the number. -/
theorem lane_getLsbD (P i : Nat) {j : Nat} (hj : j < 11) :
    (lane P i).getLsbD j = P.testBit (11 * i + j) := by
  have hmask : Config.chMask = 2 ^ 11 - 1 := rfl
  rw [lane, hmask, BitVec.getLsbD_ofNat, Nat.testBit_and, Nat.testBit_shiftRight,
    Nat.testBit_two_pow_sub_one]
  simp [hj, Config.chW]

/-- Bit `j` of channel `i` is bit `11 i + j` of the payload's bit stream (42_channel_unpack.md R130). -/
theorem unpack_getLsbD (p : List Byte) (i : Fin 16) {j : Nat} (hj : j < 11) :
    (unpack p)[i].getLsbD j = (p.getD ((11 * i.val + j) / 8) 0#8).getLsbD ((11 * i.val + j) % 8) := by
  have hlane : (unpack p)[i] = lane (packedNat p) i.val := by simp [unpack]
  rw [hlane, lane_getLsbD _ _ hj, packedNat_testBit]

theorem memRead_getD (m : Memory) (a : Nat) {n k : Nat} (hk : k < n) :
    (memRead m a n).getD k 0#8 = readByte m (BitVec.ofNat 6 (a + k)) := by
  have hk' : k < (memRead m a n).length := by rwa [memRead_length]
  rw [← memRead_getElem m a n k hk', List.getD_eq_getElem _ _ hk']

/-- What the validator accepts is the payload unpacked (41_frame_decoder.md R107). -/
theorem eq_unpack_of_validateFrame {fb : Memory} {tlen : Byte} {v : Vector Chan 16}
    (h : validateFrame fb tlen = .accept v) : v = unpack (memRead fb 3 22) := by
  obtain ⟨-, e⟩ | ⟨-, -, e⟩ | ⟨-, -, -, e⟩ | ⟨-, -, -, e⟩ | ⟨-, -, -, e⟩ := validateFrame_cases fb tlen <;>
    rw [e] at h
  · cases h
  · cases h
  · cases h
  · cases h
  · obtain ⟨-, d⟩ | ⟨-, -, d⟩ | ⟨-, -, d⟩ := dispatchType_cases fb (readByte fb 1#6).toNat <;>
      rw [d] at h
    · cases h
    · cases h
    · exact (Verdict.accept.inj h).symm

/-- Bit `j` of channel `i` of an accepted frame, as a bit of a frame-buffer byte. -/
theorem accept_getLsbD {fb : Memory} {tlen : Byte} {v : Vector Chan 16}
    (h : validateFrame fb tlen = .accept v) (i : Fin 16) {j : Nat} (hj : j < 11) :
    v[i].getLsbD j =
      (readByte fb (BitVec.ofNat 6 (3 + (11 * i.val + j) / 8))).getLsbD ((11 * i.val + j) % 8) := by
  rw [eq_unpack_of_validateFrame h, unpack_getLsbD _ i hj, memRead_getD _ _ (by omega)]

/-! ### Writers of the channels and the timestamp (10_state.md R21, R25) -/

/-- Only the status word of a VALID response is 0x00001601 (30_encoding.md R66). -/
theorem statusWord_none_ne_valid (c : Code) : statusWord c .none ≠ 0x00001601#32 := by
  cases c <;> decide

section InstanceState

variable {s t : State}

theorem step_instance_kept_or_written (h : step s = .next t) :
    (t.ch = s.ch ∧ t.lastTsValid = s.lastTsValid ∧ t.lastTs = s.lastTs) ∨
    (∃ rest, s.input = .reset :: rest) ∨
    (s.pend = false ∧ ∃ rest, s.input = .word 0x10000000#32 :: rest) ∨
    (s.pend = true ∧ t.respOut = s.respOut ++ [0x00001601#32]) := by
  cases step_effect h with
  | reset hin => exact .inr (.inl ⟨_, hin⟩)
  | init hin hp => exact .inr (.inr (.inl ⟨hp, _, hin⟩))
  | decoded v hin hp => exact .inr (.inr (.inr ⟨hp, rfl⟩))
  | idle | held | stored | answered | failed => exact .inl ⟨rfl, rfl, rfl⟩

theorem step_reset_or_init_clears (h : step s = .next t)
    (hw : (∃ rest, s.input = .reset :: rest) ∨
      (s.pend = false ∧ ∃ rest, s.input = .word 0x10000000#32 :: rest)) :
    (∀ i : Fin 16, t.ch[i] = 0#11) ∧ t.lastTsValid = false ∧ t.lastTs = 0#32 := by
  obtain ⟨rest, hin⟩ | ⟨hp, rest, hin⟩ := hw
  · have hs : step s = .next (takeReset rest) := by rw [step, hin]
    cases hs.symm.trans h
    exact ⟨by simp, rfl, rfl⟩
  · have hs : step s = exec .init (setInput rest s) := by
      rw [step, hin]; simp only [takeWord, setInput_pend, hp]; rfl
    cases hs.symm.trans h
    exact ⟨by simp, rfl, rfl⟩

theorem step_valid_writes {now : Word} {rest : List PortInput} (h : step s = .next t)
    (hp : s.pend = true) (hin : s.input = .word now :: rest)
    (hresp : t.respOut = s.respOut ++ [0x00001601#32]) :
    t.lastTsValid = s.pendW0.getLsbD 8 ∧
    t.lastTs = (if s.pendW0.getLsbD 8 then now else 0#32) ∧
    ∀ (i : Fin 16) (j : Nat), j < 11 → t.ch[i].getLsbD j =
      (readByte s.fb (BitVec.ofNat 6 (3 + (11 * i.val + j) / 8))).getLsbD ((11 * i.val + j) % 8) := by
  cases step_effect h with
  | decoded v hin' _ hv =>
    cases hin.symm.trans hin'
    exact ⟨rfl, rfl, fun i j hj => accept_getLsbD hv i hj⟩
  | failed c d =>
    obtain ⟨hc, -⟩ := List.cons.inj (List.append_cancel_left hresp)
    exact absurd hc (statusWord_none_ne_valid c)
  | idle hin' | reset hin' => cases hin.symm.trans hin'
  | held _ hp' | init _ hp' | stored _ hp' | answered _ _ _ hp' => cases hp.symm.trans hp'

end InstanceState

/-! ### Writers of the frame buffer (10_state.md R30) -/

theorem step_readByte {s t : State} (h : step s = .next t) (a : Addr) :
    readByte t.fb a = readByte s.fb a ∨
    (readByte t.fb a = 0x00#8 ∧ ∃ rest, s.input = .reset :: rest) ∨
    (s.pend = false ∧ ∃ w rest, s.input = .word w :: rest ∧ w &&& 0xFFFFC000#32 = 0x20000000#32 ∧
      w.extractLsb' 8 6 = a ∧ readByte t.fb a = w.extractLsb' 0 8) := by
  cases step_effect h with
  | reset hin => exact .inr (.inl ⟨rfl, _, hin⟩)
  | @stored w rest hin hp hm =>
    by_cases ha : w.extractLsb' 8 6 = a
    · exact .inr (.inr ⟨hp, w, rest, hin, hm, ha, by simp [ha]⟩)
    · exact .inl (readByte_writeByte_ne _ _ (Ne.symm ha))
  | idle | held | init | answered | decoded | failed => exact .inl rfl

/-! ### Readers of the channels (10_state.md R22) -/

/-- A command that is not an accessor: neither its answer nor what it writes depends on the channels. -/
theorem exec_independent_of_ch {i : Instr} {s t : State} (v : Vector Chan 16) (hall : i ≠ .getall)
    (hch : ∀ k, i ≠ .getch k) (h : exec i s = .next t) :
    ∃ t', exec i { s with ch := v } = .next t' ∧ t' = { t with ch := t'.ch } ∧
      (t'.ch = t.ch ∨ (t'.ch = v ∧ t.ch = s.ch)) := by
  cases i with
  | getall => exact absurd rfl hall
  | getch k => exact absurd rfl (hch k)
  | init => cases h; exact ⟨_, rfl, rfl, .inl rfl⟩
  | wrbuf | getts | getbaud | illegal => cases h; exact ⟨_, rfl, rfl, .inr ⟨rfl, rfl⟩⟩
  | crc start len =>
    change execCrc start len s = _ at h
    change ∃ t', execCrc start len _ = _ ∧ _
    unfold execCrc at h ⊢
    by_cases hr : crcRangeFits start len = true
    · rw [if_pos hr] at h ⊢; cases h; exact ⟨_, rfl, rfl, .inr ⟨rfl, rfl⟩⟩
    · rw [if_neg hr] at h ⊢; cases h; exact ⟨_, rfl, rfl, .inr ⟨rfl, rfl⟩⟩
  | decode tlen nowv now =>
    change execDecode tlen nowv now s = _ at h
    change ∃ t', execDecode tlen nowv now _ = _ ∧ _
    unfold execDecode at h ⊢
    cases hv : validateFrame s.fb tlen with
    | reject c => rw [hv] at h; cases h; exact ⟨_, rfl, rfl, .inr ⟨rfl, rfl⟩⟩
    | accept u => rw [hv] at h; cases h; exact ⟨_, rfl, rfl, .inl rfl⟩

/-- GETCH writes the response port only, and depends on the one channel it names. -/
theorem exec_getch_reads_one {s t : State} {k : Byte} (v : Vector Chan 16)
    (h : exec (.getch k) s = .next t) :
    t = { s with respOut := t.respOut } ∧
    ((∀ n : Fin 16, n.val = k.toNat → v[n] = s.ch[n]) →
      exec (.getch k) { s with ch := v } = .next { t with ch := v }) := by
  obtain ⟨hk, he⟩ | ⟨hk, he⟩ := execGetch_cases k s <;> cases he.symm.trans h
  · refine ⟨rfl, fun hv => ?_⟩
    have hvk : v[k.toNat] = s.ch[k.toNat] := hv ⟨k.toNat, hk⟩ rfl
    obtain ⟨_, he'⟩ | ⟨hk', -⟩ := execGetch_cases k { s with ch := v }
    · exact he'.trans (by rw [hvk]; rfl)
    · omega
  · refine ⟨rfl, fun _ => ?_⟩
    obtain ⟨hk', -⟩ | ⟨-, he'⟩ := execGetch_cases k { s with ch := v }
    · omega
    · exact he'

theorem zext32_chan_injective : Function.Injective (zext32 : Chan → Word) := fun a b h => by
  have hn := congrArg BitVec.toNat h
  rw [zext32, zext32, BitVec.toNat_setWidth_of_le (by decide),
    BitVec.toNat_setWidth_of_le (by decide)] at hn
  exact BitVec.eq_of_toNat_eq hn

/-- GETALL writes the response port only, and its answer tells every channel. -/
theorem exec_getall_reads_all {s t t' : State} {v : Vector Chan 16} (h : exec .getall s = .next t) :
    t = { s with respOut := t.respOut } ∧
    (exec .getall { s with ch := v } = .next t' → t'.respOut = t.respOut → v = s.ch) := by
  cases h
  refine ⟨rfl, fun h' hr => ?_⟩
  cases h'
  obtain ⟨-, hmap⟩ := List.cons.inj (List.append_cancel_left hr)
  exact Vector.toList_inj.1 (List.map_injective_iff.2 zext32_chan_injective hmap)

/-! ### The statements -/

/-- Settles O18: each way of `StepEffect` is made of operations that keep the invariant. -/
theorem stepKeepsTheInvariant : Obligations.StepKeepsTheInvariant := fun _ _ => step_inv

/-- Settles O19, by induction on how the state is reached. -/
theorem reachableStatesMeetTheInvariant : Obligations.ReachableStatesMeetTheInvariant :=
  fun _ => Reachable.inv

/-- Settles O20: the writers of channels and timestamp, what reset and INIT write, what a VALID DECODE writes. -/
theorem instanceStateWrittenTwoWays : Obligations.InstanceStateWrittenTwoWays := fun _ _ h =>
  ⟨step_instance_kept_or_written h, step_reset_or_init_clears h, fun _ _ => step_valid_writes h⟩

/-- Settles O21: of the ways of `StepEffect`, reset and WRBUF alone write the frame buffer. -/
theorem frameBufferWrittenByWrbufOnly : Obligations.FrameBufferWrittenByWrbufOnly :=
  fun _ _ => step_readByte

/-- Settles O23: one lemma for the commands that read no channel, one for each accessor. -/
theorem channelsReadByAccessorsOnly : Obligations.ChannelsReadByAccessorsOnly :=
  ⟨fun _ _ _ v => exec_independent_of_ch v, fun _ _ _ v => exec_getch_reads_one v,
    fun _ _ _ _ => exec_getall_reads_all⟩

/-- Settles O12: both give every channel the value 0, and the accessors answer in every state. -/
theorem resetAndInitClearInstance : Obligations.ResetAndInitClearInstance := by
  refine ⟨by simp [State.reset], rfl, rfl, fun s => ⟨_, rfl, by simp, rfl, rfl⟩, fun s index => ?_,
    fun s => ⟨_, rfl⟩⟩
  obtain ⟨_, h⟩ | ⟨-, h⟩ := execGetch_cases index s <;> exact ⟨_, h⟩

/-- Settles O17. -/
theorem resetMeetsTheInvariant : Obligations.ResetMeetsTheInvariant := reset_inv

end Sys2Proof.Machine
end

section
/-! PROOFS. The statements of 20_memory.md: commands run one at a time in arrival order (R49), queries
change nothing and repeat, and DECODE repeats over the same frame (R46). -/

namespace Sys2Proof

/-! ### Fields of an encoded word (30_encoding.md R62) -/

/-- A field reads back the value put at its place. -/
@[simp] theorem extractLsb'_field_same {n : Nat} (v : BitVec n) {lo : Nat} (h : lo + n ≤ 32) :
    (field v lo).extractLsb' lo n = v := by
  ext j hj
  have hlo : lo + j < 32 := by omega
  simp [field, hlo, BitVec.getLsbD_eq_getElem hj]

/-- A field reads 0 where only a field beside it has a value. -/
@[simp] theorem extractLsb'_field_beside {m n : Nat} (v : BitVec m) {lo lo' : Nat}
    (h : lo' + n ≤ lo ∨ lo + m ≤ lo') : (field v lo).extractLsb' lo' n = 0#n := by
  ext j hj
  obtain h | h := h
  · have hlt : lo' + j < lo := by omega
    simp [field, hlt]
  · have hout : v.getLsbD (lo' + j - lo) = false := BitVec.getLsbD_of_ge v _ (by omega)
    simp [field, hout]

/-- A one-bit field is the bit. -/
theorem getLsbD_of_extractLsb'_eq_ofBool {w : Word} {lo : Nat} {b : Bool}
    (h : w.extractLsb' lo 1 = BitVec.ofBool b) : w.getLsbD lo = b := by
  have hbit := (slice_eq_iff w lo 1 _).1 h 0 (by decide)
  simpa using hbit

/-! ### The words of a command are taken as that command -/

/-- The opcode of a one-word command is not DECODE's. -/
theorem isTwoWord_eq_false {w : Word} {k : BitVec 4} (h : opc w = k) (hk : k ≠ 0x4#4) :
    isTwoWord w = false := by
  simpa [isTwoWord, h] using hk

/-- A one-word command whose word the opcode map does not select is illegal (30_encoding.md R65). -/
theorem decodeOneWord_of_not_legal {w : Word} (h : isLegalFirst w = false) :
    decodeOneWord w = .illegal w none := by
  rw [← Bool.not_eq_true, isLegalFirst_iff] at h
  obtain ho | ho | ho | ho | ho | ho | ho | ho | ho := opc_cases w
  · rw [decodeOneWord_init ho, if_neg fun hz => h (by simp [ho, hz])]
  · rw [decodeOneWord_wrbuf ho, if_neg fun hz => h (by simp [ho, hz])]
  · rw [decodeOneWord_crc ho, if_neg fun hz => h (by simp [ho, hz])]
  · exact Machine.decodeOneWord_twoWord ho
  · rw [decodeOneWord_getch ho, if_neg fun hz => h (by simp [ho, hz])]
  · rw [decodeOneWord_getall ho, if_neg fun hz => h (by simp [ho, hz])]
  · rw [decodeOneWord_getts ho, if_neg fun hz => h (by simp [ho, hz])]
  · rw [decodeOneWord_getbaud ho, if_neg fun hz => h (by simp [ho, hz])]
  · exact decodeOneWord_otherOpcode ho

/-- A two-word command whose first word the opcode map does not select is illegal (30_encoding.md R65). -/
theorem decodeTwoWords_of_not_legal {w0 : Word} (w1 : Word) (h2 : isTwoWord w0 = true)
    (h : isLegalFirst w0 = false) : decodeTwoWords w0 w1 = .illegal w0 (some w1) := by
  rw [← Bool.not_eq_true, isLegalFirst_iff] at h
  rw [isTwoWord_iff] at h2
  exact if_neg fun hz => h (.inr (.inr (.inr (.inl ⟨h2, hz⟩))))

/-- The words of an instruction: one that decodes to it, or two that do (30_encoding.md R60, R62). -/
def TakenAs (i : Instr) (ws : List Word) : Prop :=
  (∃ w, ws = [w] ∧ isTwoWord w = false ∧ decodeOneWord w = i) ∨
  (∃ w0 w1, ws = [w0, w1] ∧ isTwoWord w0 = true ∧ decodeTwoWords w0 w1 = i)

theorem TakenAs.oneWord {w : Word} {i : Instr} {k : BitVec 4} (ho : opc w = k) (hk : k ≠ 0x4#4)
    (hd : decodeOneWord w = i) : TakenAs i [w] := .inl ⟨w, rfl, isTwoWord_eq_false ho hk, hd⟩

theorem encode_wrbuf_takenAs (idx : Addr) (data : Byte) :
    TakenAs (.wrbuf idx data) (encode (.wrbuf idx data)) := by
  have ho : opc (field 0x2#4 28 ||| field idx 8 ||| field data 0) = 0x2#4 := by
    simp [opc, BitVec.extractLsb'_or]
  refine .oneWord ho (by decide) ?_
  simp [decodeOneWord_wrbuf ho, BitVec.extractLsb'_or]

theorem encode_crc_takenAs (start : Addr) (len : BitVec 7) :
    TakenAs (.crc start len) (encode (.crc start len)) := by
  have ho : opc (field 0x3#4 28 ||| field len 8 ||| field start 0) = 0x3#4 := by
    simp [opc, BitVec.extractLsb'_or]
  refine .oneWord ho (by decide) ?_
  simp [decodeOneWord_crc ho, BitVec.extractLsb'_or]

theorem encode_getch_takenAs (index : Byte) :
    TakenAs (.getch index) (encode (.getch index)) := by
  have ho : opc (field 0x5#4 28 ||| field index 0) = 0x5#4 := by
    simp [opc, BitVec.extractLsb'_or]
  refine .oneWord ho (by decide) ?_
  simp [decodeOneWord_getch ho, BitVec.extractLsb'_or]

theorem encode_decode_takenAs (tlen : Byte) (nowv : Bool) (now : Word) :
    TakenAs (.decode tlen nowv now) (encode (.decode tlen nowv now)) := by
  have ho : opc (field 0x4#4 28 ||| field (BitVec.ofBool nowv) 8 ||| field tlen 0) = 0x4#4 := by
    simp [opc, BitVec.extractLsb'_or]
  have hb : (field 0x4#4 28 ||| field (BitVec.ofBool nowv) 8 ||| field tlen 0).getLsbD 8 = nowv :=
    getLsbD_of_extractLsb'_eq_ofBool (by simp [BitVec.extractLsb'_or])
  refine .inr ⟨_, now, rfl, (isTwoWord_iff _).2 ho, ?_⟩
  rw [decodeTwoWords, hb]
  simp [BitVec.extractLsb'_or]

/-- A well-formed illegal command keeps words that the opcode map does not select. -/
theorem encode_illegal_takenAs {first : Word} {second : Option Word}
    (h : (Instr.illegal first second).wellFormed = true) :
    TakenAs (.illegal first second) (encode (.illegal first second)) := by
  simp only [Instr.wellFormed, Bool.and_eq_true, Bool.not_eq_true', beq_iff_eq] at h
  obtain ⟨hl, hs⟩ := h
  cases second with
  | none => exact .inl ⟨first, rfl, hs.symm, decodeOneWord_of_not_legal hl⟩
  | some w1 => exact .inr ⟨first, w1, rfl, hs.symm, decodeTwoWords_of_not_legal w1 hs.symm hl⟩

/-- The words of every well-formed instruction are taken as that instruction. -/
theorem encode_takenAs {i : Instr} (h : i.wellFormed = true) : TakenAs i (encode i) := by
  cases i with
  | wrbuf idx data => exact encode_wrbuf_takenAs idx data
  | crc start len => exact encode_crc_takenAs start len
  | decode tlen nowv now => exact encode_decode_takenAs tlen nowv now
  | getch index => exact encode_getch_takenAs index
  | illegal first second => exact encode_illegal_takenAs h
  | init | getall | getts | getbaud => exact .inl ⟨_, rfl, by decide, by decide⟩

namespace Machine

/-! ### Commands one after the other (20_memory.md R49) -/

/-- Every instruction answers a next state and leaves the sequencer and the command port alone. -/
theorem exec_next_keeps_ports (i : Instr) (s : State) :
    ∃ t, exec i s = .next t ∧ t.pend = s.pend ∧ t.pendW0 = s.pendW0 ∧ t.input = s.input := by
  obtain ⟨c, d, h⟩ | ⟨-, h⟩ | ⟨a, x, -, h⟩ | ⟨n, b, x, v, -, -, h⟩ := exec_cases i s <;>
    exact ⟨_, h, rfl, rfl, rfl⟩

/-- A step with a word at the head of the command port takes that word. -/
theorem step_word {s : State} {w : Word} {rest : List PortInput} (hin : s.input = .word w :: rest) :
    step s = takeWord w (setInput rest s) := by
  rw [step, hin]

/-- With nothing held, the words of one command are taken and its instruction has run: in one step, or in
two with the first word held in between (43_host_control.md R150). -/
theorem run_command {i : Instr} {ws : List Word} (h : TakenAs i ws) (n : Nat) {s t : State}
    {rest : List PortInput} (hp : s.pend = false) (h0 : s.pendW0 = 0#32)
    (hin : s.input = ws.map PortInput.word ++ rest) (ht : exec i (setInput rest s) = .next t) :
    Sys2Proof.core.run (ws.length + n) s = Sys2Proof.core.run n t := by
  obtain ⟨w, rfl, hw, hd⟩ | ⟨w0, w1, rfl, hw, hd⟩ := h
  · have hs : step s = .next t := by
      simp [step_word hin, takeWord, hp, hw, hd, ht]
    rw [Nat.add_comm]
    exact run_succ n hs
  · have hs : step s = .next (holdFirstWord w0 (setInput (.word w1 :: rest) s)) := by
      simp [step_word hin, takeWord, hp, hw]
    have hfree : releaseFirstWord (setInput rest (holdFirstWord w0 (setInput (.word w1 :: rest) s))) =
        setInput rest s := by
      simp [releaseFirstWord, setInput, holdFirstWord, hp, h0]
    have hs' : step (holdFirstWord w0 (setInput (.word w1 :: rest) s)) = .next t :=
      (step_word rfl).trans (by simp [takeWord, hd, hfree, ht])
    rw [Nat.add_comm]
    exact (run_succ (n + 1) hs).trans (run_succ n hs')

/-! ### Queries and repeated DECODE (20_memory.md R46) -/

/-- The five commands that write no state. -/
def IsQuery (i : Instr) : Prop :=
  (∃ a n, i = .crc a n) ∨ (∃ k, i = .getch k) ∨ i = .getall ∨ i = .getts ∨ i = .getbaud

/-- A query only answers, and its answer is the same whatever is on the response port. -/
theorem query_answers {i : Instr} (hi : IsQuery i) (s : State) :
    ∃ c d, ∀ r : List Word,
      exec i { s with respOut := r } = .next (emit c .none d { s with respOut := r }) := by
  obtain ⟨a, n, rfl⟩ | ⟨k, rfl⟩ | rfl | rfl | rfl := hi
  · by_cases h : crcRangeFits a n = true
    · exact ⟨.ok, [zext32 (crc8 (memRead s.fb a.toNat n.toNat))], fun _ => if_pos h⟩
    · exact ⟨.rangeError, [], fun _ => if_neg h⟩
  · by_cases h : k.toNat < 16
    · exact ⟨.ok, [zext32 s.ch[k.toNat]], fun _ => dif_pos h⟩
    · exact ⟨.notFound, [], fun _ => dif_neg h⟩
  · exact ⟨.ok, s.ch.toList.map fun v => zext32 v, fun _ => rfl⟩
  · exact ⟨.ok, [zext32 (bit1 s.lastTsValid), s.lastTs], fun _ => rfl⟩
  · exact ⟨.ok, [Config.baud], fun _ => rfl⟩

/-- A query changes the response port only, and a repeat answers the same words. -/
theorem query_repeats {i : Instr} (hi : IsQuery i) (s : State) :
    ∃ ws, exec i s = .next { s with respOut := s.respOut ++ ws } ∧
      exec i { s with respOut := s.respOut ++ ws } =
        .next { s with respOut := s.respOut ++ ws ++ ws } := by
  obtain ⟨c, d, h⟩ := query_answers hi s
  exact ⟨statusWord c .none :: d, h s.respOut, h _⟩

theorem exec_decode_of_reject {tlen : Byte} {c : Code} {s : State}
    (h : validateFrame s.fb tlen = .reject c) (nowv : Bool) (now : Word) :
    exec (.decode tlen nowv now) s = .next (emit c .none [] s) := by
  simp [exec, execDecode, h, respond]

theorem exec_decode_of_accept {tlen : Byte} {v : Vector Chan 16} {s : State}
    (h : validateFrame s.fb tlen = .accept v) (nowv : Bool) (now : Word) :
    exec (.decode tlen nowv now) s =
      .next (emit .valid .rcChannelsPacked [] (setInstance v nowv (storedTime nowv now) s)) := by
  simp [exec, execDecode, h, respond]

/-- DECODE keeps the frame buffer, so a repeat finds the same verdict, whatever time it is given. -/
theorem decode_repeats {s t : State} {tlen : Byte} {nowv : Bool} {now : Word} (nowv' : Bool) (now' : Word)
    (h : exec (.decode tlen nowv now) s = .next t) :
    ∃ (S : Word) (u : State), t.respOut = s.respOut ++ [S] ∧
      exec (.decode tlen nowv' now') t = .next u ∧ u.respOut = t.respOut ++ [S] ∧ u.ch = t.ch ∧
      u.fb = t.fb ∧ (S = 0x00001601#32 →
        u.lastTsValid = nowv' ∧ u.lastTs = if nowv' then now' else 0#32) := by
  cases hv : validateFrame s.fb tlen with
  | reject c =>
    cases (exec_decode_of_reject hv nowv now).symm.trans h
    exact ⟨statusWord c .none, _, rfl,
      exec_decode_of_reject (s := emit c .none [] s) hv nowv' now',
      rfl, rfl, rfl, fun hS => absurd hS (statusWord_none_ne_valid c)⟩
  | accept v =>
    cases (exec_decode_of_accept hv nowv now).symm.trans h
    exact ⟨statusWord .valid .rcChannelsPacked, _, rfl,
      exec_decode_of_accept (s := emit _ _ _ (setInstance v nowv (storedTime nowv now) s)) hv nowv' now',
      rfl, rfl, rfl, fun _ => ⟨rfl, rfl⟩⟩

/-! ### The statements of the family -/

/-- Settles O14, by induction on the list of instructions: each command finds nothing held and the words
of the later ones still on the port. -/
theorem commandsRunInArrivalOrder : Obligations.CommandsRunInArrivalOrder := by
  intro is rest
  induction is with
  | nil =>
    intro s _ _ _ hin
    obtain rfl : s.input = rest := hin
    rfl
  | cons i is ih =>
    intro s hwf hp h0 hin
    obtain ⟨hi, his⟩ := List.forall_mem_cons.1 hwf
    rw [List.flatMap_cons, List.map_append, List.append_assoc] at hin
    obtain ⟨t, ht, htp, ht0, htin⟩ :=
      exec_next_keeps_ports i (setInput ((is.flatMap encode).map PortInput.word ++ rest) s)
    have hrest : exec i { s with input := rest } = .next { t with input := rest } :=
      (exec_setInput i rest _ t ht :)
    rw [List.flatMap_cons, List.length_append, run_command (encode_takenAs hi) _ hp h0 hin ht,
      ih t his (htp.trans hp) (ht0.trans h0) htin, Claims.execAll, hrest]

/-- Settles O22: a query only answers, and DECODE keeps the frame buffer, on which its verdict depends. -/
theorem queriesChangeNothingAndRepeat : Obligations.QueriesChangeNothingAndRepeat :=
  ⟨fun _ s hi => query_repeats hi s, fun _ _ _ _ nowv' _ now' h => decode_repeats nowv' now' h⟩

end Machine
end Sys2Proof
end

section
/-! PROOFS. The statements of 30_encoding.md: decode and encode are inverse to each other, the decoder
follows the opcode map, illegal commands write nothing, every command answers once, and the assembler's
forms are the encodings of their commands. -/

namespace Sys2Proof

/-! ### A stream of words holds the words of its first command (30_encoding.md R60) -/

theorem decode_oneWord {w : Word} (h : isTwoWord w = false) (rest : List Word) :
    decode (w :: rest) = .command (decodeOneWord w) rest := by
  simp [decode, h]

theorem decode_twoWords {w0 : Word} (h : isTwoWord w0 = true) (w1 : Word) (rest : List Word) :
    decode (w0 :: w1 :: rest) = .command (decodeTwoWords w0 w1) rest := by
  simp [decode, h]

theorem decode_secondWordMissing {w : Word} (h : isTwoWord w = true) :
    decode [w] = .rejected .secondWordMissing := by
  simp [decode, h]

/-- Decoding answers a command exactly when the stream begins with words that are taken as it. -/
theorem decode_eq_command_iff {ws : List Word} {i : Instr} {rest : List Word} :
    decode ws = .command i rest ↔ ∃ taken, ws = taken ++ rest ∧ TakenAs i taken := by
  constructor
  · intro h
    match ws with
    | [] => cases h
    | w :: more =>
      cases hw : isTwoWord w with
      | false =>
        cases (decode_oneWord hw more).symm.trans h
        exact ⟨[w], rfl, .inl ⟨w, rfl, hw, rfl⟩⟩
      | true =>
        match more with
        | [] => cases (decode_secondWordMissing hw).symm.trans h
        | w1 :: more =>
          cases (decode_twoWords hw w1 more).symm.trans h
          exact ⟨[w, w1], rfl, .inr ⟨w, w1, rfl, hw, rfl⟩⟩
  · rintro ⟨_, rfl, ⟨w, rfl, hw, rfl⟩ | ⟨w0, w1, rfl, hw, rfl⟩⟩
    · exact decode_oneWord hw rest
    · exact decode_twoWords hw w1 rest

/-! ### A word is its fields side by side (30_encoding.md R62) -/

@[simp] theorem field_zero (n lo : Nat) : field (0#n) lo = 0#32 := by
  simp [field]

/-- A slice put back at its place has the word's bits there and no others. -/
theorem getLsbD_field_slice (w : Word) (lo n j : Nat) :
    (field (w.extractLsb' lo n) lo).getLsbD j = (decide (lo ≤ j ∧ j < lo + n) && w.getLsbD j) := by
  simp only [field, BitVec.getLsbD_shiftLeft, BitVec.getLsbD_setWidth, BitVec.getLsbD_extractLsb']
  by_cases hlo : lo ≤ j
  · have hj : lo + (j - lo) = j := by omega
    have hn : j - lo < n ↔ j < lo + n := by omega
    by_cases h32 : j < 32
    · have hlt : j - lo < 32 := by omega
      simp [hlo, hj, hn, h32, hlt]
    · have hout : w.getLsbD j = false := BitVec.getLsbD_of_ge w j (by omega)
      simp [h32, hout]
  · have hlt : j < lo := by omega
    simp [hlo, hlt]

/-- Two slices of a word that lie side by side, each at its place, are one slice at its place. -/
theorem field_or_field_slice (w : Word) {lo m hi : Nat} (n : Nat) (h : lo + m = hi) :
    field (w.extractLsb' hi n) hi ||| field (w.extractLsb' lo m) lo =
      field (w.extractLsb' lo (m + n)) lo := by
  refine BitVec.eq_of_getLsbD_eq fun j _ => ?_
  have hrange : (hi ≤ j ∧ j < hi + n) ∨ (lo ≤ j ∧ j < lo + m) ↔ lo ≤ j ∧ j < lo + (m + n) := by omega
  simp only [BitVec.getLsbD_or, getLsbD_field_slice, ← Bool.and_or_distrib_right, ← Bool.decide_or,
    hrange]

theorem field_slice_all (w : Word) : field (w.extractLsb' 0 32) 0 = w := by
  simp [field]

/-- Must-be-zero bits below a field: the field alone is the slice that has both. -/
theorem field_slice_above_zero {w : Word} {lo m hi : Nat} (n : Nat) (h : lo + m = hi)
    (hz : w.extractLsb' lo m = 0#m) :
    field (w.extractLsb' hi n) hi = field (w.extractLsb' lo (m + n)) lo := by
  rw [← field_or_field_slice w n h, hz, field_zero, BitVec.or_zero]

/-- Format Z: the opcode alone. -/
theorem opcode_only_eq {w : Word} {k : BitVec 4} (ho : opc w = k) (hz : w.extractLsb' 0 28 = 0#28) :
    [field k 28] = [w] := by
  subst ho
  exact congrArg (fun v => [v]) ((field_slice_above_zero 4 rfl hz).trans (field_slice_all w))

/-- Format W. -/
theorem encode_wrbuf_slices {w : Word} (ho : opc w = 0x2#4) (hz : w.extractLsb' 14 14 = 0#14) :
    encode (.wrbuf (w.extractLsb' 8 6) (w.extractLsb' 0 8)) = [w] := by
  rw [encode, ← ho, opc, field_slice_above_zero 4 (rfl : 14 + 14 = 28) hz,
    field_or_field_slice w _ (rfl : 8 + 6 = 14), field_or_field_slice w _ (rfl : 0 + 8 = 8)]
  exact congrArg (fun v => [v]) (field_slice_all w)

/-- Format C. -/
theorem encode_crc_slices {w : Word} (ho : opc w = 0x3#4) (hz : w.extractLsb' 15 13 = 0#13)
    (hz' : w.extractLsb' 6 2 = 0#2) : encode (.crc (w.extractLsb' 0 6) (w.extractLsb' 8 7)) = [w] := by
  rw [encode, ← ho, opc, field_slice_above_zero 4 (rfl : 15 + 13 = 28) hz,
    field_or_field_slice w _ (rfl : 8 + 7 = 15), field_slice_above_zero _ (rfl : 6 + 2 = 8) hz',
    field_or_field_slice w _ (rfl : 0 + 6 = 6)]
  exact congrArg (fun v => [v]) (field_slice_all w)

/-- Format G. -/
theorem encode_getch_slices {w : Word} (ho : opc w = 0x5#4) (hz : w.extractLsb' 8 20 = 0#20) :
    encode (.getch (w.extractLsb' 0 8)) = [w] := by
  rw [encode, ← ho, opc, field_slice_above_zero 4 (rfl : 8 + 20 = 28) hz,
    field_or_field_slice w _ (rfl : 0 + 8 = 8)]
  exact congrArg (fun v => [v]) (field_slice_all w)

/-- Format D. -/
theorem encode_decode_slices {w : Word} (now : Word) (ho : opc w = 0x4#4)
    (hz : w.extractLsb' 9 19 = 0#19) :
    encode (.decode (w.extractLsb' 0 8) (w.getLsbD 8) now) = [w, now] := by
  have hbit : BitVec.ofBool (w.getLsbD 8) = w.extractLsb' 8 1 := ((slice_eq_iff w 8 1 _).2 (by simp)).symm
  rw [encode, hbit, ← ho, opc, field_slice_above_zero 4 (rfl : 9 + 19 = 28) hz,
    field_or_field_slice w _ (rfl : 8 + 1 = 9), field_or_field_slice w _ (rfl : 0 + 8 = 8)]
  exact congrArg (fun v => [v, now]) (field_slice_all w)

/-! ### What is decoded: the row of the opcode where the map selects the word, and the words kept -/

/-- The opcode of the row an instruction belongs to; the ILLEGAL row has none. -/
def Instr.rowOpcode : Instr → Option (BitVec 4)
  | .init => some 0x1#4
  | .wrbuf _ _ => some 0x2#4
  | .crc _ _ => some 0x3#4
  | .decode _ _ _ => some 0x4#4
  | .getch _ => some 0x5#4
  | .getall => some 0x6#4
  | .getts => some 0x7#4
  | .getbaud => some 0x8#4
  | .illegal _ _ => none

theorem wellFormed_of_rowOpcode {i : Instr} {k : BitVec 4} (h : i.rowOpcode = some k) :
    i.wellFormed = true := by
  cases i with
  | illegal => cases h
  | _ => rfl

/-- `ws`, whose first word is `w`, are the words of `i`: `i` is in the row the opcode map selects for `w`, or
in none, and encoding `i` gives `ws` back. -/
structure Decodes (w : Word) (ws : List Word) (i : Instr) : Prop where
  row : i.rowOpcode = if isLegalFirst w then some (opc w) else none
  wellFormed : i.wellFormed = true
  encoded : encode i = ws

theorem Decodes.of_legal {w : Word} {ws : List Word} {i : Instr} (hl : isLegalFirst w = true)
    (hr : i.rowOpcode = some (opc w)) (he : encode i = ws) : Decodes w ws i :=
  ⟨by rw [if_pos hl, hr], wellFormed_of_rowOpcode hr, he⟩

theorem Decodes.of_not_legal {w : Word} (second : Option Word) (hl : isLegalFirst w = false)
    (hs : second.isSome = isTwoWord w) : Decodes w (w :: second.toList) (.illegal w second) :=
  ⟨by rw [hl]; rfl, by simp [Instr.wellFormed, hl, hs], rfl⟩

theorem decodes_oneWord {w : Word} (hw : isTwoWord w = false) : Decodes w [w] (decodeOneWord w) := by
  cases hl : isLegalFirst w with
  | true =>
    obtain ⟨ho, hz⟩ | ⟨ho, hz⟩ | ⟨ho, hz⟩ | ⟨ho, -⟩ | ⟨ho, hz⟩ | ⟨ho, hz⟩ | ⟨ho, hz⟩ | ⟨ho, hz⟩ :=
      (isLegalFirst_iff w).1 hl
    · rw [decodeOneWord_init ho, if_pos hz]
      exact .of_legal hl (congrArg some ho.symm) (opcode_only_eq ho hz)
    · rw [decodeOneWord_wrbuf ho, if_pos hz]
      exact .of_legal hl (congrArg some ho.symm) (encode_wrbuf_slices ho hz)
    · rw [decodeOneWord_crc ho, if_pos hz]
      exact .of_legal hl (congrArg some ho.symm) (encode_crc_slices ho hz.1 hz.2)
    · cases hw.symm.trans ((isTwoWord_iff w).2 ho)
    · rw [decodeOneWord_getch ho, if_pos hz]
      exact .of_legal hl (congrArg some ho.symm) (encode_getch_slices ho hz)
    · rw [decodeOneWord_getall ho, if_pos hz]
      exact .of_legal hl (congrArg some ho.symm) (opcode_only_eq ho hz)
    · rw [decodeOneWord_getts ho, if_pos hz]
      exact .of_legal hl (congrArg some ho.symm) (opcode_only_eq ho hz)
    · rw [decodeOneWord_getbaud ho, if_pos hz]
      exact .of_legal hl (congrArg some ho.symm) (opcode_only_eq ho hz)
  | false =>
    rw [decodeOneWord_of_not_legal hl]
    exact .of_not_legal none hl hw.symm

theorem decodes_twoWords {w0 : Word} (hw : isTwoWord w0 = true) (w1 : Word) :
    Decodes w0 [w0, w1] (decodeTwoWords w0 w1) := by
  cases hl : isLegalFirst w0 with
  | true =>
    have ho : opc w0 = 0x4#4 := (isTwoWord_iff w0).1 hw
    have hz : w0.extractLsb' 9 19 = 0#19 := by simpa [isLegalFirst_iff, ho] using hl
    rw [decodeTwoWords, if_pos hz]
    exact .of_legal hl (congrArg some ho.symm) (encode_decode_slices w1 ho hz)
  | false =>
    rw [decodeTwoWords_of_not_legal w1 hw hl]
    exact .of_not_legal (some w1) hl hw.symm

/-- Words taken as an instruction are its encoding, and it is well formed. -/
theorem TakenAs.encode_eq {i : Instr} {ws : List Word} (h : TakenAs i ws) :
    i.wellFormed = true ∧ encode i = ws := by
  obtain ⟨w, rfl, hw, rfl⟩ | ⟨w0, w1, rfl, hw, rfl⟩ := h
  · exact ⟨(decodes_oneWord hw).wellFormed, (decodes_oneWord hw).encoded⟩
  · exact ⟨(decodes_twoWords hw w1).wellFormed, (decodes_twoWords hw w1).encoded⟩

/-! ### The rows of the opcode map as masks (30_encoding.md R64) -/

/-- Every row's condition fixes the opcode. -/
theorem opc_of_selects {r : OpcodeRow} (hr : r ∈ opcodeMap) {w : Word} (h : w &&& r.mask = r.pattern) :
    opc w = opc r.pattern := by
  have hmask : opc r.mask = BitVec.allOnes 4 := by
    have : ∀ r ∈ opcodeMap, opc r.mask = BitVec.allOnes 4 := by decide
    exact this r hr
  rw [← h, opc, opc, BitVec.extractLsb'_and]
  rw [opc] at hmask
  rw [hmask, BitVec.and_allOnes]

/-- No two rows have the same opcode. -/
theorem row_eq_of_opc_eq : ∀ r ∈ opcodeMap, ∀ r' ∈ opcodeMap, opc r.pattern = opc r'.pattern → r = r' := by
  decide

/-- A row's condition holds exactly when the map selects the word and the opcode is the row's. -/
theorem legal_and_opc_iff_selects {r : OpcodeRow} (hr : r ∈ opcodeMap) (w : Word) :
    isLegalFirst w = true ∧ opc w = opc r.pattern ↔ w &&& r.mask = r.pattern := by
  constructor
  · rintro ⟨hl, ho⟩
    obtain ⟨r', hr', hs⟩ := List.any_eq_true.1 hl
    have hs' : w &&& r'.mask = r'.pattern := by simpa [OpcodeRow.selects] using hs
    obtain rfl := row_eq_of_opc_eq r' hr' r hr ((opc_of_selects hr' hs').symm.trans ho)
    exact hs'
  · intro h
    exact ⟨List.any_eq_true.2 ⟨r, hr, by simpa [OpcodeRow.selects] using h⟩, opc_of_selects hr h⟩

/-- What is decoded from words that begin with `w` is in a row exactly when `w` meets the row's condition. -/
theorem Decodes.rowOpcode_iff {w : Word} {ws : List Word} {i : Instr} (h : Decodes w ws i) {r : OpcodeRow}
    (hr : r ∈ opcodeMap) : i.rowOpcode = some (opc r.pattern) ↔ w &&& r.mask = r.pattern := by
  rw [h.row, ← legal_and_opc_iff_selects hr, Option.ite_none_right_eq_some, Option.some_inj]

/-- The constructors in each row. -/
theorem rowOpcode_eq_some_iff (i : Instr) :
    (i.rowOpcode = some 0x1#4 ↔ i = .init) ∧
    (i.rowOpcode = some 0x2#4 ↔ ∃ idx data, i = .wrbuf idx data) ∧
    (i.rowOpcode = some 0x3#4 ↔ ∃ start len, i = .crc start len) ∧
    (i.rowOpcode = some 0x4#4 ↔ ∃ tlen nowv now, i = .decode tlen nowv now) ∧
    (i.rowOpcode = some 0x5#4 ↔ ∃ index, i = .getch index) ∧
    (i.rowOpcode = some 0x6#4 ↔ i = .getall) ∧
    (i.rowOpcode = some 0x7#4 ↔ i = .getts) ∧
    (i.rowOpcode = some 0x8#4 ↔ i = .getbaud) := by
  cases i <;> simp [Instr.rowOpcode]

/-- R64's table for what is decoded from words that begin with `w`. -/
theorem Decodes.follows_map {w : Word} {ws : List Word} {i : Instr} (h : Decodes w ws i) :
    (i = .init ↔ w = 0x10000000#32) ∧
    ((∃ idx data, i = .wrbuf idx data) ↔ w &&& 0xFFFFC000#32 = 0x20000000#32) ∧
    ((∃ start len, i = .crc start len) ↔ w &&& 0xFFFF80C0#32 = 0x30000000#32) ∧
    ((∃ tlen nowv now, i = .decode tlen nowv now) ↔ w &&& 0xFFFFFE00#32 = 0x40000000#32) ∧
    ((∃ index, i = .getch index) ↔ w &&& 0xFFFFFF00#32 = 0x50000000#32) ∧
    (i = .getall ↔ w = 0x60000000#32) ∧
    (i = .getts ↔ w = 0x70000000#32) ∧
    (i = .getbaud ↔ w = 0x80000000#32) := by
  have rows : ∀ r ∈ opcodeMap, (i.rowOpcode = some (opc r.pattern) ↔ w &&& r.mask = r.pattern) :=
    fun r hr => h.rowOpcode_iff hr
  simp only [opcodeMap, List.forall_mem_cons, and_allOnes_eq] at rows
  obtain ⟨init, wrbuf, crc, decode, getch, getall, getts, getbaud, -⟩ := rows
  obtain ⟨init', wrbuf', crc', decode', getch', getall', getts', getbaud'⟩ := rowOpcode_eq_some_iff i
  exact ⟨init'.symm.trans init, wrbuf'.symm.trans wrbuf, crc'.symm.trans crc, decode'.symm.trans decode,
    getch'.symm.trans getch, getall'.symm.trans getall, getts'.symm.trans getts,
    getbaud'.symm.trans getbaud⟩

/-! ### The statements about the decoder -/

/-- Settles O2: the words of a well-formed instruction are taken as it, whatever follows them. -/
theorem decodeGivesBackEncoded : Obligations.DecodeGivesBackEncoded := fun _ _ h =>
  decode_eq_command_iff.2 ⟨_, rfl, encode_takenAs h⟩

/-- Settles O3: the words taken are the encoding, since a word is its fields side by side. -/
theorem encodeGivesBackDecoded : Obligations.EncodeGivesBackDecoded := by
  intro ws i rest h
  obtain ⟨taken, rfl, ht⟩ := decode_eq_command_iff.1 h
  obtain ⟨hwf, henc⟩ := ht.encode_eq
  exact ⟨hwf, by rw [henc]⟩

/-- Settles O4: the opcode decides between the two lengths; a DECODE keeps its second word whole. -/
theorem firstWordTellsCommandLength : Obligations.FirstWordTellsCommandLength := by
  intro w w1 rest
  constructor
  · intro ho
    exact ⟨_, decode_oneWord (isTwoWord_eq_false rfl ho) rest⟩
  · intro ho
    have hw : isTwoWord w = true := (isTwoWord_iff w).2 ho
    refine ⟨decode_secondWordMissing hw, ⟨_, decode_twoWords hw w1 rest⟩, fun tlen nowv now rest' h => ?_⟩
    rw [decode_twoWords hw] at h
    obtain ⟨hi, -⟩ := Decoded.command.inj h
    obtain hd | hd := Machine.decodeTwoWords_cases w w1
    · cases hd.symm.trans hi
      rfl
    · cases hd.symm.trans hi

/-- Settles O5: by the length of the command, with R64's table for both. -/
theorem decoderFollowsOpcodeMap : Obligations.DecoderFollowsOpcodeMap := by
  intro w w1
  by_cases ho : opc w = 0x4#4
  · have hw : isTwoWord w = true := (isTwoWord_iff w).2 ho
    obtain ⟨init, wrbuf, crc, decode, getch, getall, getts, getbaud⟩ := (decodes_twoWords hw w1).follows_map
    refine ⟨_, _, decode_twoWords hw w1 [], init, wrbuf, crc, decode, getch, getall, getts, getbaud,
      fun h => ?_, (if_pos ho).symm⟩
    change opc w = _ ∨ 9 ≤ (opc w).toNat at h
    simp [ho] at h
  · have hw : isTwoWord w = false := isTwoWord_eq_false rfl ho
    obtain ⟨init, wrbuf, crc, decode, getch, getall, getts, getbaud⟩ := (decodes_oneWord hw).follows_map
    exact ⟨_, _, decode_oneWord hw [w1], init, wrbuf, crc, decode, getch, getall, getts, getbaud,
      decodeOneWord_otherOpcode, (if_neg ho).symm⟩

/-- Settles O1. -/
theorem specWordsDecodeAsWritten : Obligations.SpecWordsDecodeAsWritten := by
  unfold Obligations.SpecWordsDecodeAsWritten
  decide

namespace Machine

/-! ### Illegal commands (30_encoding.md R65, 43_host_control.md R155) -/

theorem step_oneWord {s : State} {w : Word} {rest : List PortInput} (hp : s.pend = false)
    (hin : s.input = .word w :: rest) (hw : isTwoWord w = false) :
    step s = exec (decodeOneWord w) (setInput rest s) := by
  simp [step_word hin, takeWord, hp, hw]

theorem step_firstWord {s : State} {w : Word} {rest : List PortInput} (hp : s.pend = false)
    (hin : s.input = .word w :: rest) (hw : isTwoWord w = true) :
    step s = .next (holdFirstWord w (setInput rest s)) := by
  simp [step_word hin, takeWord, hp, hw]

theorem step_secondWord {s : State} {w : Word} {rest : List PortInput} (hp : s.pend = true)
    (hin : s.input = .word w :: rest) :
    step s = exec (decodeTwoWords s.pendW0 w) (releaseFirstWord (setInput rest s)) := by
  simp [step_word hin, takeWord, hp]

/-- The illegal first words of R65 but for DECODE's: an opcode with no row, or a must-be-zero bit set. -/
def IllegalOneWord (w : Word) : Prop :=
  opc w = 0x0#4 ∨ 9 ≤ (opc w).toNat ∨
  ((opc w = 0x1#4 ∨ opc w = 0x6#4 ∨ opc w = 0x7#4 ∨ opc w = 0x8#4) ∧ w.extractLsb' 0 28 ≠ 0#28) ∨
  (opc w = 0x2#4 ∧ w.extractLsb' 14 14 ≠ 0#14) ∨
  (opc w = 0x3#4 ∧ (w.extractLsb' 15 13 ≠ 0#13 ∨ w.extractLsb' 6 2 ≠ 0#2)) ∨
  (opc w = 0x5#4 ∧ w.extractLsb' 8 20 ≠ 0#20)

theorem IllegalOneWord.not_twoWord {w : Word} (h : IllegalOneWord w) : isTwoWord w = false := by
  refine isTwoWord_eq_false rfl fun ho => ?_
  simp [IllegalOneWord, ho] at h

theorem IllegalOneWord.decode {w : Word} (h : IllegalOneWord w) : decodeOneWord w = .illegal w none := by
  obtain ho | ho | ⟨ho | ho | ho | ho, hz⟩ | ⟨ho, hz⟩ | ⟨ho, hz⟩ | ⟨ho, hz⟩ := h
  · exact decodeOneWord_otherOpcode (.inl ho)
  · exact decodeOneWord_otherOpcode (.inr ho)
  · rw [decodeOneWord_init ho, if_neg hz]
  · rw [decodeOneWord_getall ho, if_neg hz]
  · rw [decodeOneWord_getts ho, if_neg hz]
  · rw [decodeOneWord_getbaud ho, if_neg hz]
  · rw [decodeOneWord_wrbuf ho, if_neg hz]
  · rw [decodeOneWord_crc ho, if_neg (not_and_or.2 hz)]
  · rw [decodeOneWord_getch ho, if_neg hz]

/-- An illegal DECODE first word is held, and with the next word, whatever it is, answers ILLEGAL_CMD. -/
theorem steps_illegal_decode {s : State} {w w1 : Word} {rest : List PortInput} (hp : s.pend = false)
    (hin : s.input = .word w :: .word w1 :: rest) (ho : opc w = 0x4#4) (hz : w.extractLsb' 9 19 ≠ 0#19) :
    ∃ t, step s = .next t ∧ t = { s with input := .word w1 :: rest, pend := true, pendW0 := w } ∧
      step t = .next { s with input := rest, pendW0 := 0#32, respOut := s.respOut ++ [0x00000007#32] } := by
  refine ⟨_, step_firstWord hp hin ((isTwoWord_iff w).2 ho), rfl, ?_⟩
  have hd : decodeTwoWords w w1 = .illegal w (some w1) := if_neg hz
  rw [step_secondWord rfl rfl, holdFirstWord_pendW0, hd, hp]
  rfl

/-- Settles O6: each class decodes to ILLEGAL, whose meaning only answers. -/
theorem illegalCommandsChangeNothing : Obligations.IllegalCommandsChangeNothing := by
  refine ⟨fun _ _ _ => rfl, fun s w rest hp hin h => ?_, fun s w w1 rest => steps_illegal_decode⟩
  have hill : IllegalOneWord w := h
  rw [step_oneWord hp hin hill.not_twoWord, hill.decode]
  rfl

/-! ### The answers (30_encoding.md R66, R67) -/

/-- The codes of a frame that fails validation (41_frame_decoder.md R100). -/
theorem validateFrame_reject_code {fb : Memory} {tlen : Byte} {c : Code}
    (h : validateFrame fb tlen = .reject c) :
    c = .addressError ∨ c = .payloadError ∨ c = .unsupportedType := by
  obtain ⟨-, hv⟩ | ⟨-, -, hv⟩ | ⟨-, -, -, hv⟩ | ⟨-, -, -, hv⟩ | ⟨-, -, -, hv⟩ := validateFrame_cases fb tlen
  · cases hv.symm.trans h; exact .inr (.inl rfl)
  · cases hv.symm.trans h; exact .inl rfl
  · cases hv.symm.trans h; exact .inr (.inl rfl)
  · cases hv.symm.trans h; exact .inr (.inl rfl)
  · obtain ⟨-, hd⟩ | ⟨-, -, hd⟩ | ⟨-, -, hd⟩ := dispatchType_cases fb (readByte fb 1#6).toNat
    · cases (hv.trans hd).symm.trans h; exact .inr (.inr rfl)
    · cases (hv.trans hd).symm.trans h; exact .inr (.inl rfl)
    · cases (hv.trans hd).symm.trans h

/-- DECODE answers one of its four status words and no data. -/
theorem exec_decode_status {tlen : Byte} {nowv : Bool} {now : Word} {s t : State}
    (h : exec (.decode tlen nowv now) s = .next t) :
    ∃ S, t.respOut = s.respOut ++ [S] ∧
      (S = 0x00001601#32 ∨ S = 0x00000002#32 ∨ S = 0x00000003#32 ∨ S = 0x00000004#32) := by
  obtain ⟨c, hv, he⟩ | ⟨v, -, he⟩ := execDecode_cases tlen nowv now s <;> cases he.symm.trans h
  · refine ⟨_, rfl, .inr ?_⟩
    obtain rfl | rfl | rfl := validateFrame_reject_code hv
    · exact .inl rfl
    · exact .inr (.inl rfl)
    · exact .inr (.inr rfl)
  · exact ⟨_, rfl, .inl rfl⟩

/-- Settles O15, command by command. -/
theorem everyCommandAnswersOnce : Obligations.EveryCommandAnswersOnce := by
  intro i s t h
  cases i with
  | init | wrbuf | getbaud | illegal => cases h; exact ⟨_, _, rfl, rfl, rfl⟩
  | crc start len =>
    obtain ⟨-, he⟩ | ⟨-, he⟩ := execCrc_cases start len s <;> cases he.symm.trans h
    · exact ⟨_, _, rfl, .inl ⟨rfl, rfl⟩⟩
    · exact ⟨_, _, rfl, .inr ⟨rfl, rfl⟩⟩
  | decode tlen nowv now =>
    obtain ⟨S, hr, hS⟩ := exec_decode_status h
    exact ⟨S, [], hr, hS, rfl⟩
  | getch index =>
    obtain ⟨hk, he⟩ | ⟨-, he⟩ := execGetch_cases index s <;> cases he.symm.trans h
    · exact ⟨_, _, rfl, .inl ⟨rfl, ⟨index.toNat, hk⟩, rfl, rfl⟩⟩
    · exact ⟨_, _, rfl, .inr ⟨rfl, rfl⟩⟩
  | getall =>
    cases h
    exact ⟨_, _, rfl, rfl, by simp, fun k => by simp [zext32]⟩
  | getts =>
    cases h
    exact ⟨_, _, rfl, rfl, by cases s.lastTsValid <;> rfl⟩

/-! ### The assembler's words (30_encoding.md R68) -/

/-- A number that fits a field, shifted to the field's place. -/
theorem ofNat_shiftLeft_eq_field {n x : Nat} (lo : Nat) (h : x < 2 ^ n) :
    BitVec.ofNat 32 (x <<< lo) = field (BitVec.ofNat n x) lo := by
  apply BitVec.eq_of_toNat_eq
  simp [field, Nat.mod_eq_of_lt h, Nat.shiftLeft_eq]

/-- A number that fits a field at bit 0. -/
theorem ofNat_eq_field {n x : Nat} (h : x < 2 ^ n) : BitVec.ofNat 32 x = field (BitVec.ofNat n x) 0 :=
  ofNat_shiftLeft_eq_field 0 h

theorem wordsIf_eq_some_iff {b : Bool} {ns : List Nat} {ws : List Word} :
    wordsIf b ns = some ws ↔ b = true ∧ ns.map (BitVec.ofNat 32) = ws := by
  simp [wordsIf]

theorem asmWrbuf_eq_some_iff {idx data : Nat} {ws : List Word} : asmWrbuf idx data = some ws ↔
    idx ≤ 63 ∧ data ≤ 255 ∧ ws = encode (.wrbuf (BitVec.ofNat 6 idx) (BitVec.ofNat 8 data)) := by
  rw [asmWrbuf, wordsIf_eq_some_iff, Bool.and_eq_true, decide_eq_true_iff, decide_eq_true_iff, and_assoc,
    eq_comm (b := ws)]
  refine and_congr_right fun hi => and_congr_right fun hd => ?_
  have hw : field 0x2#4 28 = BitVec.ofNat 32 0x20000000 := by decide
  rw [encode, hw, ← ofNat_shiftLeft_eq_field (n := 6) 8 (by omega), ← ofNat_eq_field (n := 8) (by omega),
    ← BitVec.ofNat_or, ← BitVec.ofNat_or]
  rfl

theorem asmCrc_eq_some_iff {start len : Nat} {ws : List Word} : asmCrc start len = some ws ↔
    start ≤ 63 ∧ len ≤ 127 ∧ ws = encode (.crc (BitVec.ofNat 6 start) (BitVec.ofNat 7 len)) := by
  rw [asmCrc, wordsIf_eq_some_iff, Bool.and_eq_true, decide_eq_true_iff, decide_eq_true_iff, and_assoc,
    eq_comm (b := ws)]
  refine and_congr_right fun hs => and_congr_right fun hl => ?_
  have hw : field 0x3#4 28 = BitVec.ofNat 32 0x30000000 := by decide
  rw [encode, hw, ← ofNat_shiftLeft_eq_field (n := 7) 8 (by omega), ← ofNat_eq_field (n := 6) (by omega),
    ← BitVec.ofNat_or, ← BitVec.ofNat_or]
  rfl

theorem asmDecode_none_eq_some_iff {tlen : Nat} {ws : List Word} : asmDecode tlen none = some ws ↔
    tlen ≤ 255 ∧ ws = encode (.decode (BitVec.ofNat 8 tlen) false 0#32) := by
  rw [asmDecode, wordsIf_eq_some_iff, decide_eq_true_iff, eq_comm (b := ws)]
  refine and_congr_right fun ht => ?_
  have hw : field 0x4#4 28 ||| field (BitVec.ofBool false) 8 = BitVec.ofNat 32 0x40000000 := by decide
  rw [encode, hw, ← ofNat_eq_field (n := 8) (by omega), ← BitVec.ofNat_or]
  rfl

theorem asmDecode_some_eq_some_iff {tlen now : Nat} {ws : List Word} :
    asmDecode tlen (some now) = some ws ↔ tlen ≤ 255 ∧ now < 2 ^ 32 ∧
      ws = encode (.decode (BitVec.ofNat 8 tlen) true (BitVec.ofNat 32 now)) := by
  rw [asmDecode, wordsIf_eq_some_iff, Bool.and_eq_true, decide_eq_true_iff, decide_eq_true_iff, and_assoc,
    eq_comm (b := ws)]
  refine and_congr_right fun ht => and_congr_right fun _ => ?_
  have hw : field 0x4#4 28 ||| field (BitVec.ofBool true) 8 = BitVec.ofNat 32 0x40000100 := by decide
  rw [encode, hw, ← ofNat_eq_field (n := 8) (by omega), ← BitVec.ofNat_or]
  rfl

theorem assemble_getch_eq_some_iff {index : Nat} {ws : List Word} :
    assemble (.getch index) = some ws ↔ index ≤ 255 ∧ ws = encode (.getch (BitVec.ofNat 8 index)) := by
  rw [assemble, wordsIf_eq_some_iff, decide_eq_true_iff, eq_comm (b := ws)]
  refine and_congr_right fun hi => ?_
  have hw : field 0x5#4 28 = BitVec.ofNat 32 0x50000000 := by decide
  rw [encode, hw, ← ofNat_eq_field (n := 8) (by omega), ← BitVec.ofNat_or]
  rfl

theorem assemble_word_eq_some_iff {w : Nat} {ws : List Word} :
    assemble (.word w) = some ws ↔ w < 2 ^ 32 ∧ ws = [BitVec.ofNat 32 w] := by
  rw [assemble, wordsIf_eq_some_iff, decide_eq_true_iff, eq_comm (b := ws)]
  rfl

/-- Settles O55: for each form the words it assembles to and the operands it takes, by one equivalence. -/
theorem assemblerEncodesEveryForm : Obligations.AssemblerEncodesEveryForm := by
  refine ⟨by decide, by decide, by decide, by decide, fun idx data => ?_, fun start len => ?_, fun tlen => ?_,
    fun tlen now => ?_, fun index => ?_, fun w => ?_, fun idx data hout => ?_, fun start len hout => ?_,
    fun tlen now hout => ?_, fun tlen hout => ?_, fun index hout => ?_, fun w hout => ?_⟩
  · exact asmWrbuf_eq_some_iff.2 ⟨by omega, by omega, by simp⟩
  · exact asmCrc_eq_some_iff.2 ⟨by omega, by omega, by simp⟩
  · exact asmDecode_none_eq_some_iff.2 ⟨by omega, by simp⟩
  · exact asmDecode_some_eq_some_iff.2 ⟨by omega, now.isLt, by simp⟩
  · exact assemble_getch_eq_some_iff.2 ⟨by omega, by simp⟩
  · exact assemble_word_eq_some_iff.2 ⟨w.isLt, by simp⟩
  all_goals refine Option.eq_none_iff_forall_ne_some.2 fun ws h => ?_
  · obtain ⟨hi, hd, -⟩ := asmWrbuf_eq_some_iff.1 h
    omega
  · obtain ⟨hs, hl, -⟩ := asmCrc_eq_some_iff.1 h
    omega
  · obtain ⟨ht, hn, -⟩ := asmDecode_some_eq_some_iff.1 h
    omega
  · obtain ⟨ht, -⟩ := asmDecode_none_eq_some_iff.1 h
    omega
  · obtain ⟨hi, -⟩ := assemble_getch_eq_some_iff.1 h
    omega
  · obtain ⟨hw, -⟩ := assemble_word_eq_some_iff.1 h
    omega

/-! ### LOAD (30_encoding.md R69) -/

theorem asmLoad_cons_eq_some_iff {base b : Nat} {bytes : List Nat} {ws : List Word} :
    asmLoad base (b :: bytes) = some ws ↔ base ≤ 63 ∧ b ≤ 255 ∧
      ∃ more, asmLoad (base + 1) bytes = some more ∧
        ws = encode (.wrbuf (BitVec.ofNat 6 base) (BitVec.ofNat 8 b)) ++ more := by
  constructor
  · intro h
    rw [asmLoad] at h
    split at h
    · next first more hfirst hmore =>
      obtain ⟨hbase, hb, rfl⟩ := asmWrbuf_eq_some_iff.1 hfirst
      cases h
      exact ⟨hbase, hb, more, hmore, rfl⟩
    · cases h
  · rintro ⟨hbase, hb, more, hmore, rfl⟩
    rw [asmLoad, asmWrbuf_eq_some_iff.2 ⟨hbase, hb, rfl⟩, hmore]

theorem asmLoad_cons_ne_none_iff {base b : Nat} {bytes : List Nat} :
    asmLoad base (b :: bytes) ≠ none ↔ base ≤ 63 ∧ b ≤ 255 ∧ asmLoad (base + 1) bytes ≠ none := by
  simp only [Option.ne_none_iff_exists', asmLoad_cons_eq_some_iff]
  constructor
  · rintro ⟨_, hbase, hb, more, hmore, -⟩
    exact ⟨hbase, hb, more, hmore⟩
  · rintro ⟨hbase, hb, more, hmore⟩
    exact ⟨_, hbase, hb, more, hmore, rfl⟩

/-- LOAD assembles exactly where every byte and every address fits. -/
theorem asmLoad_ne_none_iff (base b0 : Nat) (bs : List Nat) :
    asmLoad base (b0 :: bs) ≠ none ↔ base + bs.length ≤ 63 ∧ ∀ b ∈ b0 :: bs, b ≤ 255 := by
  induction bs generalizing base b0 with
  | nil =>
    rw [asmLoad_cons_ne_none_iff]
    simp [asmLoad]
  | cons b1 bs ih =>
    rw [asmLoad_cons_ne_none_iff, ih, List.length_cons, List.forall_mem_cons (a := b0)]
    have hlen : base ≤ 63 ∧ base + 1 + bs.length ≤ 63 ↔ base + (bs.length + 1) ≤ 63 := by omega
    rw [← hlen, and_assoc, and_left_comm (a := b0 ≤ 255)]

theorem asmLoad_eq_flatMap {base : Nat} {bytes : List Nat} {ws : List Word}
    (h : asmLoad base bytes = some ws) :
    ws = (bytes.zipIdx base).flatMap fun p =>
      encode (.wrbuf (BitVec.ofNat 6 p.2) (BitVec.ofNat 8 p.1)) := by
  induction bytes generalizing base ws with
  | nil => cases h; rfl
  | cons b bytes ih =>
    obtain ⟨-, -, more, hmore, rfl⟩ := asmLoad_cons_eq_some_iff.1 h
    rw [ih hmore]
    rfl

/-- The bytes stored one after the other from an address on. -/
def storeBytes : Nat → List Nat → Memory → Memory
  | _, [], m => m
  | base, b :: bytes, m =>
    storeBytes (base + 1) bytes (writeByte m (BitVec.ofNat 6 base) (BitVec.ofNat 8 b))

/-- An address outside the range stored to reads as before. -/
theorem readByte_storeBytes_outside {base : Nat} {bytes : List Nat} (m : Memory) {a : Addr}
    (hfit : base + bytes.length ≤ 64) (ha : a.toNat < base ∨ base + bytes.length ≤ a.toNat) :
    readByte (storeBytes base bytes m) a = readByte m a := by
  induction bytes generalizing base m with
  | nil => rfl
  | cons b bytes ih =>
    rw [List.length_cons] at hfit ha
    have hne : a ≠ BitVec.ofNat 6 base := by
      intro h
      rw [h, BitVec.toNat_ofNat, Nat.mod_eq_of_lt (by omega)] at ha
      omega
    rw [storeBytes, ih _ (by omega) (by omega), readByte_writeByte_ne m _ hne]

/-- Each address in the range reads as stored. -/
theorem readByte_storeBytes {base : Nat} {bytes : List Nat} (m : Memory)
    (hfit : base + bytes.length ≤ 64) (k : Nat) (hk : k < bytes.length) :
    readByte (storeBytes base bytes m) (BitVec.ofNat 6 (base + k)) = BitVec.ofNat 8 bytes[k] := by
  induction bytes generalizing base m k with
  | nil => cases hk
  | cons b bytes ih =>
    rw [List.length_cons] at hfit hk
    rw [storeBytes]
    cases k with
    | zero =>
      rw [readByte_storeBytes_outside _ (by omega) (.inl (by simp; omega))]
      exact readByte_writeByte_same ..
    | succ k =>
      have haddr : base + (k + 1) = base + 1 + k := by omega
      rw [haddr, ih _ (by omega) k (by omega)]
      rfl

/-- WRBUF's word is taken in one step, which stores the byte and answers OK (43_host_control.md R152). -/
theorem step_wrbuf {s : State} {idx : Addr} {data : Byte} {rest : List PortInput} (hp : s.pend = false)
    (hin : s.input = (encode (.wrbuf idx data)).map PortInput.word ++ rest) :
    step s = .next (emit .ok .none [] (storeByte idx data (setInput rest s))) := by
  obtain ⟨w, he, hw, hd⟩ | ⟨w0, w1, he, -⟩ := encode_wrbuf_takenAs idx data
  · rw [he] at hin
    rw [step_oneWord hp hin hw, hd]
    rfl
  · cases he

/-- LOAD's words, taken one by one, store the bytes and answer OK for each. -/
theorem run_load {base : Nat} {bytes : List Nat} {ws : List Word} {s : State} {rest : List PortInput}
    (h : asmLoad base bytes = some ws) (hp : s.pend = false)
    (hin : s.input = ws.map PortInput.word ++ rest) :
    Sys2Proof.core.run ws.length s = .next
      { s with fb := storeBytes base bytes s.fb, input := rest,
               respOut := s.respOut ++ List.replicate bytes.length 0x00000000#32 } := by
  induction bytes generalizing base ws s with
  | nil =>
    cases h
    obtain rfl : s.input = rest := hin
    exact (run_zero s).trans (by simp [storeBytes])
  | cons b bytes ih =>
    obtain ⟨-, -, more, hmore, rfl⟩ := asmLoad_cons_eq_some_iff.1 h
    rw [List.map_append, List.append_assoc] at hin
    rw [List.length_append, Nat.add_comm]
    refine (run_succ _ (step_wrbuf hp hin)).trans ?_
    rw [ih hmore]
    · rw [emit_respOut, List.append_assoc]
      rfl
    · exact hp
    · rfl

/-- Settles O56: LOAD's words by induction on its bytes, the other pseudo-instructions by definition. -/
theorem loadPutsEveryByte : Obligations.LoadPutsEveryByte := by
  refine ⟨asmLoad_ne_none_iff, fun _ _ _ _ => asmLoad_eq_flatMap, fun _ _ => rfl, fun tlen h => if_pos h,
    fun tlen h => if_neg (by omega), fun _ _ => rfl, fun base b0 bs ws s rest h hp hin => ?_⟩
  have hfit : base + (b0 :: bs).length ≤ 64 := by
    have hb := ((asmLoad_ne_none_iff base b0 bs).1 (Option.ne_none_iff_exists'.2 ⟨ws, h⟩)).1
    rw [List.length_cons]
    omega
  exact ⟨_, run_load h hp hin, readByte_storeBytes s.fb hfit,
    fun a ha => readByte_storeBytes_outside s.fb hfit (by rw [List.length_cons]; omega), rfl⟩

end Machine
end Sys2Proof
end

section
/-! PROOFS. The statements of 40_crc_engine.md: the CRC command (R85), the ROM and its generating rule (R81,
R82), the laws of the checksum (R84), and the checksum as a remainder over GF(2). -/

namespace Sys2Proof.Machine

open Sys2Proof.Claims
open Polynomial (X)

/-! ### One-word commands through the sequencer (43_host_control.md R150) -/

/-- Where a row's decoding is told by its mask, the sequencer takes its words so. -/
theorem oneWordCommand_of_decodeOneWord {op : BitVec 4} {mask pattern : Word} {run : Word → Instr}
    (hop : op ≠ 0x4#4) (hd : ∀ w, opc w = op →
      decodeOneWord w = if w &&& mask = pattern then run w else .illegal w none) :
    OneWordCommand op mask pattern run := by
  intro s w rest hp hin ho
  rw [step_oneWord hp hin (isTwoWord_eq_false ho hop), hd w ho]
  constructor
  · intro hsel
    rw [if_pos hsel]
    rfl
  · intro hsel
    rw [if_neg hsel]
    rfl

/-! ### The ROM (40_crc_engine.md R81, R82, R84) -/

/-- The table that R81 prints is the one that R82 generates. -/
theorem romT_eq_gen : ∀ i : Byte, romT i = gen i := by decide

theorem shiftOnce_xor (a b : Byte) : shiftOnce (a ^^^ b) = shiftOnce a ^^^ shiftOnce b := by
  unfold shiftOnce
  rw [BitVec.msb_xor, BitVec.shiftLeft_xor_distrib]
  cases a.msb with
  | false => cases b.msb with
    | false => rfl
    | true => exact BitVec.xor_assoc ..
  | true => cases b.msb with
    | false =>
      change a <<< 1 ^^^ b <<< 1 ^^^ Config.crcPoly = a <<< 1 ^^^ Config.crcPoly ^^^ b <<< 1
      ac_rfl
    | true =>
      change a <<< 1 ^^^ b <<< 1 = a <<< 1 ^^^ Config.crcPoly ^^^ (b <<< 1 ^^^ Config.crcPoly)
      rw [BitVec.xor_comm (b <<< 1), BitVec.xor_assoc, ← BitVec.xor_assoc Config.crcPoly,
        BitVec.xor_self, BitVec.zero_xor]

theorem shiftOnce_eq_zero : ∀ {c : Byte}, shiftOnce c = 0#8 → c = 0#8 := by decide

theorem shiftTimes_xor (n : Nat) (a b : Byte) :
    shiftTimes n (a ^^^ b) = shiftTimes n a ^^^ shiftTimes n b := by
  induction n generalizing a b with
  | zero => rfl
  | succ n ih => rw [shiftTimes, shiftOnce_xor, ih]; rfl

theorem shiftTimes_eq_zero {n : Nat} {c : Byte} (h : shiftTimes n c = 0#8) : c = 0#8 := by
  induction n generalizing c with
  | zero => exact h
  | succ n ih => exact shiftOnce_eq_zero (ih h)

theorem romT_xor (a b : Byte) : romT (a ^^^ b) = romT a ^^^ romT b := by
  simp only [romT_eq_gen, gen, shiftTimes_xor]

theorem romT_eq_zero_iff (a : Byte) : romT a = 0#8 ↔ a = 0#8 :=
  ⟨fun h => shiftTimes_eq_zero ((romT_eq_gen a).symm.trans h), fun h => by rw [h]; rfl⟩

theorem romT_injective : Function.Injective romT := fun a b h => by
  rw [← BitVec.xor_eq_zero_iff] at h ⊢
  rwa [← romT_xor, romT_eq_zero_iff] at h

/-! ### The checksum, byte by byte (40_crc_engine.md R80) -/

@[simp] theorem crc8_nil : crc8 [] = 0#8 := rfl

/-- The checksum of one byte more. -/
theorem crc8_append_singleton (m : List Byte) (b : Byte) : crc8 (m ++ [b]) = romT (crc8 m ^^^ b) := by
  simp [crc8, crcStep]

/-- The checksum of a message followed by a byte is 0 exactly when the byte is the message's checksum. -/
theorem crc8_append_singleton_eq_zero_iff (m : List Byte) (b : Byte) :
    crc8 (m ++ [b]) = 0#8 ↔ crc8 m = b := by
  rw [crc8_append_singleton, romT_eq_zero_iff, BitVec.xor_eq_zero_iff]

theorem foldl_crcStep_xor {m e : List Byte} (h : m.length = e.length) (c d : Byte) :
    (List.zipWith (· ^^^ ·) m e).foldl crcStep (c ^^^ d) = m.foldl crcStep c ^^^ e.foldl crcStep d := by
  induction m generalizing e c d with
  | nil => cases e with
    | nil => rfl
    | cons => cases h
  | cons x m ih => cases e with
    | nil => cases h
    | cons y e =>
      have hstep : crcStep (c ^^^ d) (x ^^^ y) = crcStep c x ^^^ crcStep d y := by
        simp only [crcStep, ← romT_xor]
        congr 1
        ac_rfl
      rw [List.zipWith_cons_cons, List.foldl_cons, hstep]
      exact ih (Nat.succ.inj h) _ _

theorem crcStep_injective_left (b : Byte) : Function.Injective (crcStep · b) := fun _ _ h =>
  (BitVec.xor_left_inj b).1 (romT_injective h)

theorem crcStep_injective_right (c : Byte) : Function.Injective (crcStep c) := fun _ _ h =>
  (BitVec.xor_right_inj c).1 (romT_injective h)

theorem foldl_crcStep_injective (bytes : List Byte) :
    Function.Injective (fun c => bytes.foldl crcStep c) := by
  induction bytes with
  | nil => exact fun _ _ h => h
  | cons b bytes ih => exact fun _ _ h => crcStep_injective_left b (ih h)

/-- Inputs that differ in one byte have different checksums. -/
theorem crc8_append_cons_inj {p q : List Byte} {x y : Byte} :
    crc8 (p ++ x :: q) = crc8 (p ++ y :: q) ↔ x = y := by
  refine ⟨fun h => ?_, fun h => by rw [h]⟩
  rw [crc8, crc8, List.foldl_append, List.foldl_append] at h
  exact crcStep_injective_right _ (foldl_crcStep_injective q h)

theorem crc8_replicate_zero (n : Nat) : crc8 (List.replicate n 0#8) = 0#8 := by
  induction n with
  | zero => rfl
  | succ n ih => rw [List.replicate_succ', crc8_append_singleton, ih]; rfl

/-- Writing another byte at a position of an input changes its checksum. -/
theorem crc8_set_ne {l : List Byte} {k : Nat} {v : Byte} (hk : k < l.length) (hv : v ≠ l[k]) :
    crc8 (l.set k v) ≠ crc8 l := by
  intro h
  have hl : l.take k ++ l[k] :: l.drop (k + 1) = l := by
    rw [← List.drop_eq_getElem_cons hk, List.take_append_drop]
  rw [List.set_eq_take_append_cons_drop, if_pos hk] at h
  exact hv (crc8_append_cons_inj.1 (h.trans (congrArg crc8 hl.symm)))

/-! ### Bytes as polynomials over GF(2) -/

/-- The divisor of R82. -/
noncomputable def crcDivisor : Polynomial (ZMod 2) := X ^ 8 + X ^ 7 + X ^ 6 + X ^ 4 + X ^ 2 + 1

/-- A coefficient of a number's polynomial is its bit. -/
theorem bitsPoly_coeff (n width i : Nat) :
    (bitsPoly n width).coeff i = if i < width ∧ n.testBit i = true then 1 else 0 := by
  simp only [bitsPoly, Polynomial.finsetSum_coeff, apply_ite (Polynomial.coeff · i),
    Polynomial.coeff_X_pow, Polynomial.coeff_zero, ← ite_and]
  simp only [and_comm (b := i = _), ite_and, Finset.sum_ite_eq, Finset.mem_range]

/-- The polynomial of a byte. -/
noncomputable def bytePoly (c : Byte) : Polynomial (ZMod 2) := bitsPoly c.toNat 8

theorem bytePoly_coeff (c : Byte) (i : Nat) :
    (bytePoly c).coeff i = if c.getLsbD i = true then 1 else 0 := by
  rw [bytePoly, bitsPoly_coeff, BitVec.testBit_toNat]
  congr 1
  exact propext ⟨And.right, fun h => ⟨BitVec.lt_of_getLsbD h, h⟩⟩

theorem bytePoly_xor (a b : Byte) : bytePoly (a ^^^ b) = bytePoly a + bytePoly b := by
  ext i
  rw [Polynomial.coeff_add, bytePoly_coeff, bytePoly_coeff, bytePoly_coeff, BitVec.getLsbD_xor]
  cases a.getLsbD i <;> cases b.getLsbD i <;> decide

theorem bytePoly_degree_lt (c : Byte) : (bytePoly c).degree < 8 := by
  refine (Polynomial.degree_lt_iff_coeff_zero _ 8).2 fun i hi => ?_
  rw [bytePoly_coeff, BitVec.getLsbD_of_ge c i hi]
  rfl

theorem bytePoly_crcPoly : bytePoly Config.crcPoly = X ^ 7 + X ^ 6 + X ^ 4 + X ^ 2 + 1 := by
  have hval : Config.crcPoly.toNat = 0xD5 := rfl
  have hsum : bytePoly Config.crcPoly = 1 + X ^ 2 + X ^ 4 + X ^ 6 + X ^ 7 := by
    simp [bytePoly, bitsPoly, hval, Finset.sum_range_succ, Nat.testBit]
  rw [hsum]
  ring

/-- Shifting a byte left: the bit shifted out is the coefficient of `x^8`. -/
theorem X_mul_bytePoly (c : Byte) :
    X * bytePoly c = bytePoly (c <<< 1) + if c.msb then X ^ 8 else 0 := by
  ext i
  rw [Polynomial.coeff_add, bytePoly_coeff, apply_ite (Polynomial.coeff · i), Polynomial.coeff_X_pow,
    Polynomial.coeff_zero]
  cases i with
  | zero => simp
  | succ i =>
    rw [Polynomial.coeff_X_mul, bytePoly_coeff]
    obtain hi | rfl | hi := Nat.lt_trichotomy i 7
    · have hne : i ≠ 7 := by omega
      have hlt : i + 1 < 8 := by omega
      simp [hne, hlt, Nat.lt_of_succ_lt hlt]
    · simp [BitVec.msb_eq_getLsbD_last]
    · have hne : i ≠ 7 := by omega
      simp [hne, BitVec.getLsbD_of_ge c i hi]

/-! ### The checksum as a remainder (40_crc_engine.md R82) -/

theorem crcDivisor_eq : crcDivisor = X ^ 8 + bytePoly Config.crcPoly := by
  rw [bytePoly_crcPoly, crcDivisor]
  ring

theorem crcDivisor_monic : crcDivisor.Monic := by
  unfold crcDivisor
  monicity!

theorem crcDivisor_degree : crcDivisor.degree = 8 := by
  unfold crcDivisor
  compute_degree!

theorem bytePoly_modByMonic (c : Byte) : bytePoly c %ₘ crcDivisor = bytePoly c :=
  (Polynomial.modByMonic_eq_self_iff crcDivisor_monic).2 (crcDivisor_degree ▸ bytePoly_degree_lt c)

theorem mul_modByMonic_congr {p p' d : Polynomial (ZMod 2)} (h : p %ₘ d = p' %ₘ d)
    (q : Polynomial (ZMod 2)) : (p * q) %ₘ d = (p' * q) %ₘ d := by
  rw [Polynomial.mul_modByMonic, h, ← Polynomial.mul_modByMonic]

/-- A shift of the generating rule is multiplication by `x` with one subtraction of the divisor where a bit
falls out. -/
theorem bytePoly_mul_X_modByMonic (c : Byte) :
    (bytePoly c * X) %ₘ crcDivisor = bytePoly (shiftOnce c) %ₘ crcDivisor := by
  rw [mul_comm, X_mul_bytePoly, shiftOnce]
  cases c.msb with
  | false => simp
  | true =>
    refine Polynomial.modByMonic_eq_of_dvd_sub crcDivisor_monic (dvd_of_eq ?_)
    rw [if_pos rfl, if_pos rfl, bytePoly_xor, add_sub_add_left_eq_sub, CharTwo.sub_eq_add, crcDivisor_eq]

theorem bytePoly_mul_X_pow_modByMonic (n : Nat) (c : Byte) :
    (bytePoly c * X ^ n) %ₘ crcDivisor = bytePoly (shiftTimes n c) := by
  induction n generalizing c with
  | zero => rw [pow_zero, mul_one, bytePoly_modByMonic]; rfl
  | succ n ih =>
    rw [pow_succ', ← mul_assoc, mul_modByMonic_congr (bytePoly_mul_X_modByMonic c), ih]
    rfl

/-- `T[i] = (i(x) * x^8) mod 0x1D5(x)`. -/
theorem bytePoly_romT (i : Byte) : bytePoly (romT i) = (bytePoly i * X ^ 8) %ₘ crcDivisor := by
  rw [romT_eq_gen, gen, bytePoly_mul_X_pow_modByMonic]

/-- `M(x)` of a message, its first bit the highest coefficient. -/
noncomputable def messagePoly (m : List Byte) : Polynomial (ZMod 2) :=
  bitsPoly (bigEndian m) (8 * m.length)

theorem messagePoly_append_singleton (m : List Byte) (b : Byte) :
    messagePoly (m ++ [b]) = messagePoly m * X ^ 8 + bytePoly b := by
  have hnum : bigEndian (m ++ [b]) = 2 ^ 8 * bigEndian m + b.toNat := by
    simp [bigEndian, Nat.mul_comm]
  ext i
  rw [Polynomial.coeff_add, Polynomial.coeff_mul_X_pow', bytePoly_coeff, messagePoly, messagePoly,
    bitsPoly_coeff, bitsPoly_coeff, hnum, Nat.testBit_two_pow_mul_add _ b.isLt, List.length_append,
    List.length_singleton]
  by_cases hi : i < 8
  · have hlen : i < 8 * (m.length + 1) := by omega
    have hge : ¬8 ≤ i := by omega
    simp [hi, hlen, hge, BitVec.testBit_toNat]
  · have hlen : i < 8 * (m.length + 1) ↔ i - 8 < 8 * m.length := by omega
    have hge : 8 ≤ i := by omega
    simp [hi, hlen, hge]

theorem messagePoly_mul_X_pow_modByMonic (m : List Byte) :
    (messagePoly m * X ^ 8) %ₘ crcDivisor = bytePoly (crc8 m) := by
  induction m using List.reverseRecOn with
  | nil => simp [messagePoly, bitsPoly, bytePoly]
  | append_singleton m b ih =>
    have hreg : messagePoly (m ++ [b]) %ₘ crcDivisor = bytePoly (crc8 m ^^^ b) %ₘ crcDivisor := by
      rw [messagePoly_append_singleton, Polynomial.add_modByMonic, ih, bytePoly_modByMonic,
        bytePoly_modByMonic, bytePoly_xor]
    rw [mul_modByMonic_congr hreg, ← bytePoly_romT, crc8_append_singleton]

/-! ### A frame with one byte changed (40_crc_engine.md R84, 41_frame_decoder.md R105) -/

theorem memRead_succ (fb : Memory) (a n : Nat) :
    memRead fb a (n + 1) = memRead fb a n ++ [readByte fb (BitVec.ofNat 6 (a + n))] := by
  simp [memRead, List.range_succ]

/-- A byte written inside a range read is that byte of the range and no other. -/
theorem memRead_writeByte {fb : Memory} {lo n : Nat} {a : Addr} (v : Byte) (hlo : lo ≤ a.toNat)
    (hfit : lo + n ≤ 64) : memRead (writeByte fb a v) lo n = (memRead fb lo n).set (a.toNat - lo) v := by
  refine List.ext_getElem (by simp [memRead_length]) fun j hj _ => ?_
  rw [memRead_length] at hj
  have haddr : BitVec.ofNat 6 (lo + j) = a ↔ a.toNat - lo = j := by
    rw [← BitVec.toNat_inj, BitVec.toNat_ofNat, Nat.mod_eq_of_lt (by omega)]
    omega
  simp only [memRead_getElem, List.getElem_set, readByte_writeByte, haddr]

/-- The checksum step passes exactly when the bytes from the type through the checksum have checksum 0. -/
theorem checksumPasses_iff {fb : Memory} {tlen : Byte} (h : LengthPasses fb tlen) :
    ChecksumPasses fb tlen ↔ crc8 (memRead fb 2 (tlen.toNat - 2)) = 0#8 := by
  obtain ⟨hmin, -, htlen⟩ := h
  have hn : tlen.toNat - 2 = (readByte fb 1#6).toNat - 1 + 1 := by omega
  have hlast : 2 + ((readByte fb 1#6).toNat - 1) = tlen.toNat - 1 := by omega
  rw [hn, memRead_succ, crc8_append_singleton_eq_zero_iff, hlast]

theorem validateFrame_of_not_checksumPasses {fb : Memory} {tlen : Byte} (ha : readByte fb 0#6 = 0xC8#8)
    (hc : ¬ChecksumPasses fb tlen) : validateFrame fb tlen = .reject .payloadError := by
  obtain ⟨_, h⟩ | ⟨-, h, -⟩ | ⟨-, -, -, h⟩ | ⟨-, -, -, h⟩ | ⟨-, -, h, -⟩ := validateFrame_cases fb tlen
  · exact h
  · exact absurd ha h
  · exact h
  · exact h
  · exact absurd h hc

/-! ### The statements -/

/-- Settles O31: the decoder's row for the opcode, and the two answers of the meaning. -/
theorem crcAnswersTheChecksum : Obligations.CrcAnswersTheChecksum := by
  refine ⟨oneWordCommand_of_decodeOneWord (by decide) fun w ho => ?_, fun s start len => ?_⟩
  · rw [decodeOneWord_crc ho]
    simp only [selects_crc_iff, ho, true_and]
  · obtain ⟨hfit, h⟩ | ⟨hout, h⟩ := execCrc_cases start len s
    · exact ⟨fun _ => h, fun hout => absurd hfit (by omega)⟩
    · exact ⟨fun hfit => absurd hfit (by omega), fun _ => h⟩

/-- Settles O32, index by index. -/
theorem romIsGenerated : Obligations.RomIsGenerated := romT_eq_gen

/-- Settles O33: a lookup of the table is the eight shifts it was generated by. -/
theorem crcEqualsBitSerial : Obligations.CrcEqualsBitSerial := by
  intro bytes
  have hstep : crcStep = fun c b => shiftTimes 8 (c ^^^ b) := by
    funext c b
    exact romT_eq_gen _
  rw [crc8, crc8Serial, hstep]

/-- Settles O34: the last lookup is that of the checksum XORed with itself. -/
theorem crcResidueIsZero : Obligations.CrcResidueIsZero :=
  ⟨rfl, fun m => (crc8_append_singleton_eq_zero_iff m _).2 rfl⟩

/-- Settles O35: the table is linear as its generating shift is, and so is the checksum, byte by byte. -/
theorem crcIsLinear : Obligations.CrcIsLinear :=
  ⟨romT_xor, fun _ _ h => foldl_crcStep_xor h 0#8 0#8⟩

/-- Settles O36: an input that differs from one of zeros in one byte has not its checksum, which is 0. -/
theorem oneNonzeroByteIsSeen : Obligations.OneNonzeroByteIsSeen := by
  refine ⟨fun _ _ h => romT_injective h, romT_eq_zero_iff, fun n k x hx h => hx ?_⟩
  have hzeros : crc8 (List.replicate n 0#8 ++ 0#8 :: List.replicate k 0#8) = 0#8 := by
    rw [← List.replicate_succ, List.replicate_append_replicate, crc8_replicate_zero]
  exact crc8_append_cons_inj.1 (h.trans hzeros.symm)

/-- Settles O37, byte by byte from the last: `M(x)` grows as the register does. -/
theorem crcIsPolynomialRemainder : Obligations.CrcIsPolynomialRemainder :=
  messagePoly_mul_X_pow_modByMonic

/-- Settles O38, by the nine lookups. -/
theorem checkValueIsBC : Obligations.CheckValueIsBC := by
  unfold Obligations.CheckValueIsBC
  decide

/-- Settles O49: the frame's bytes from the type through the checksum have checksum 0, and no longer when one
of them is another byte. -/
theorem everyOneByteChangeIsCaught : Obligations.EveryOneByteChangeIsCaught := by
  intro s tlen nowv now a v hheader hcrc hlo hhi hv
  obtain ⟨haddr, hmin, hmax, htlen⟩ := hheader
  have hlen : LengthPasses s.fb tlen := ⟨hmin, hmax, by omega⟩
  have h0 : readByte (writeByte s.fb a v) 0#6 = readByte s.fb 0#6 :=
    readByte_writeByte_ne _ _ (by rintro rfl; simp at hlo)
  have h1 : readByte (writeByte s.fb a v) 1#6 = readByte s.fb 1#6 :=
    readByte_writeByte_ne _ _ (by rintro rfl; simp at hlo)
  have hlen' : LengthPasses (writeByte s.fb a v) tlen := by rwa [LengthPasses, h1]
  have hzero : crc8 (memRead s.fb 2 (tlen.toNat - 2)) = 0#8 := by
    rw [← checksumPasses_iff hlen]
    have hn : (readByte s.fb 1#6).toNat - 1 = tlen.toNat - 3 := by omega
    rw [ChecksumPasses, hn]
    exact hcrc
  have hbad : ¬ChecksumPasses (writeByte s.fb a v) tlen := by
    rw [checksumPasses_iff hlen', memRead_writeByte v hlo (by omega), ← hzero]
    refine crc8_set_ne (by rw [memRead_length]; omega) ?_
    rw [memRead_getElem, Nat.add_sub_cancel' hlo, BitVec.ofNat_toNat, BitVec.setWidth_eq]
    exact hv
  exact exec_decode_of_reject (s := { s with fb := writeByte s.fb a v })
    (validateFrame_of_not_checksumPasses (h0.trans haddr) hbad) nowv now

end Sys2Proof.Machine
end

section
/-! PROOFS. The statements of 41_frame_decoder.md: what each check of a DECODE answers (R103 to R108), what a
DECODE reads and writes (R101, R102, R107, R109, R111, R113), and the frames that decode to given values
(R136). -/

namespace Sys2Proof.Machine

open Sys2Proof.Claims

/-! ### Steps 1 to 3 in the words of the statements -/

theorem bytesFrom_eq_memRead (fb : Memory) (a n : Nat) : bytesFrom fb a n = memRead fb a n := rfl

theorem headerGood_iff (fb : Memory) (tlen : Byte) :
    HeaderGood fb tlen ↔ readByte fb 0#6 = 0xC8#8 ∧ LengthPasses fb tlen := by
  unfold HeaderGood LengthPasses
  refine and_congr_right fun _ => and_congr_right fun _ => and_congr_right fun _ => ?_
  omega

/-- Where the length passes, `frame_length - 1` and `TLEN - 3` are one count of bytes. -/
theorem crcGood_iff {fb : Memory} {tlen : Byte} (h : LengthPasses fb tlen) :
    CrcGood fb tlen ↔ ChecksumPasses fb tlen := by
  have hn : tlen.toNat - 3 = (readByte fb 1#6).toNat - 1 := by omega
  rw [CrcGood, hn, bytesFrom_eq_memRead]

/-- A good header is one of a frame of 7 to 64 bytes (41_frame_decoder.md R104). -/
theorem tlen_bounds_of_headerGood {fb : Memory} {tlen : Byte} (h : HeaderGood fb tlen) :
    7 ≤ tlen.toNat ∧ tlen.toNat ≤ 64 ∧ (readByte fb 1#6).toNat = tlen.toNat - 2 := by
  obtain ⟨-, hmin, hmax, heq⟩ := h
  omega

/-- A frame too short for a header has no good one. -/
theorem not_headerGood_of_tlen_lt {fb : Memory} {tlen : Byte} (h : tlen.toNat < 7) : ¬HeaderGood fb tlen :=
  fun hh => absurd (tlen_bounds_of_headerGood hh).1 (by omega)

/-- With a good header the frame length is 24 exactly where the frame has 26 bytes. -/
theorem frameLength_eq_iff {fb : Memory} {tlen : Byte} (h : HeaderGood fb tlen) :
    readByte fb 1#6 = 24#8 ↔ tlen = 26#8 := by
  obtain ⟨hmin, -, hlen⟩ := tlen_bounds_of_headerGood h
  rw [← BitVec.toNat_inj, ← BitVec.toNat_inj, hlen, BitVec.toNat_ofNat, BitVec.toNat_ofNat]
  omega

/-! ### What the validator finds, check by check (41_frame_decoder.md R100) -/

/-- Steps 1 and 2: a frame whose header is not good is rejected by its address byte, if it has one, and
otherwise by its length. -/
theorem validateFrame_of_not_headerGood {fb : Memory} {tlen : Byte} (h : ¬HeaderGood fb tlen) :
    validateFrame fb tlen = .reject
      (if 1 ≤ tlen.toNat ∧ readByte fb 0#6 ≠ 0xC8#8 then .addressError else .payloadError) := by
  rw [headerGood_iff] at h
  obtain ⟨h0, hv⟩ | ⟨h1, ha, hv⟩ | ⟨-, ha, -, hv⟩ | ⟨ha, hl, -⟩ | ⟨ha, hl, -⟩ := validateFrame_cases fb tlen
  · rw [hv, if_neg (by omega)]
  · rw [hv, if_pos ⟨h1, ha⟩]
  · rw [hv, if_neg (fun hne => hne.2 ha)]
  · exact absurd ⟨ha, hl⟩ h
  · exact absurd ⟨ha, hl⟩ h

/-- Steps 3 and 4: a frame with a good header is judged by its checksum, then its type, then its length. -/
theorem validateFrame_of_headerGood {fb : Memory} {tlen : Byte} (h : HeaderGood fb tlen) :
    validateFrame fb tlen =
      if CrcGood fb tlen then
        if readByte fb 2#6 = 0x16#8 then
          if readByte fb 1#6 = 24#8 then .accept (unpack (memRead fb 3 22)) else .reject .payloadError
        else .reject .unsupportedType
      else .reject .payloadError := by
  obtain ⟨ha, hl⟩ := (headerGood_iff fb tlen).1 h
  have hcrc := crcGood_iff hl
  obtain ⟨h0, -⟩ | ⟨-, hne, -⟩ | ⟨-, -, hnl, -⟩ | ⟨-, -, hc, hv⟩ | ⟨-, -, hc, hv⟩ :=
    validateFrame_cases fb tlen
  · omega
  · exact absurd ha hne
  · exact absurd hl hnl
  · rw [hv, if_neg (mt hcrc.1 hc)]
  · have hfl : (readByte fb 1#6).toNat = 24 ↔ readByte fb 1#6 = 24#8 :=
      BitVec.toNat_inj (y := 24#8)
    rw [hv, if_pos (hcrc.2 hc)]
    obtain ⟨ht, hd⟩ | ⟨ht, hf, hd⟩ | ⟨ht, hf, hd⟩ := dispatchType_cases fb (readByte fb 1#6).toNat
    · rw [hd, if_neg ht]
    · rw [hd, if_pos ht, if_neg (mt hfl.2 hf)]
    · rw [hd, if_pos ht, if_pos (hfl.1 hf)]

/-- A frame of 26 bytes that passes every check is accepted, its payload unpacked (41_frame_decoder.md R107). -/
theorem validateFrame_of_rcFrame {fb : Memory} (hh : HeaderGood fb 26#8) (hc : CrcGood fb 26#8)
    (ht : readByte fb 2#6 = 0x16#8) : validateFrame fb 26#8 = .accept (unpack (memRead fb 3 22)) := by
  rw [validateFrame_of_headerGood hh, if_pos hc, if_pos ht, if_pos ((frameLength_eq_iff hh).2 rfl)]

/-- Such a frame commits its unpacked payload and the time, and nothing else changes but the response. -/
theorem exec_decode_of_rcFrame {s : State} (hh : HeaderGood s.fb 26#8) (hc : CrcGood s.fb 26#8)
    (ht : readByte s.fb 2#6 = 0x16#8) (nowv : Bool) (now : Word) :
    exec (.decode 26#8 nowv now) s = .next { s with
      ch := unpack (memRead s.fb 3 22), lastTsValid := nowv, lastTs := if nowv then now else 0#32,
      respOut := s.respOut ++ [0x00001601#32] } :=
  exec_decode_of_accept (validateFrame_of_rcFrame hh hc ht) nowv now

/-! ### The status word a verdict is answered with -/

/-- The status word of a DECODE's response (41_frame_decoder.md R101, R107). -/
def Verdict.status : Verdict → Word
  | .reject c => statusWord c .none
  | .accept _ => statusWord .valid .rcChannelsPacked

/-- A DECODE answers one word, the status of what the validator finds. -/
theorem decode_respOut {s t : State} {tlen : Byte} {nowv : Bool} {now : Word}
    (h : exec (.decode tlen nowv now) s = .next t) :
    t.respOut = s.respOut ++ [(validateFrame s.fb tlen).status] := by
  cases hv : validateFrame s.fb tlen with
  | reject c =>
    cases (exec_decode_of_reject hv nowv now).symm.trans h
    rfl
  | accept v =>
    cases (exec_decode_of_accept hv nowv now).symm.trans h
    rfl

theorem status_of_not_headerGood {fb : Memory} {tlen : Byte} (h : ¬HeaderGood fb tlen) :
    (validateFrame fb tlen).status =
      if 1 ≤ tlen.toNat ∧ readByte fb 0#6 ≠ 0xC8#8 then 0x00000002#32 else 0x00000003#32 := by
  rw [validateFrame_of_not_headerGood h]
  split <;> rfl

theorem status_of_headerGood {fb : Memory} {tlen : Byte} (h : HeaderGood fb tlen) :
    (validateFrame fb tlen).status =
      if CrcGood fb tlen then
        if readByte fb 2#6 = 0x16#8 then
          if readByte fb 1#6 = 24#8 then 0x00001601#32 else 0x00000003#32
        else 0x00000004#32
      else 0x00000003#32 := by
  rw [validateFrame_of_headerGood h]
  split_ifs <;> rfl

/-- Only a frame with a good header is answered VALID or UNSUPPORTED_TYPE. -/
theorem headerGood_of_status {fb : Memory} {tlen : Byte}
    (h : (validateFrame fb tlen).status = 0x00001601#32 ∨ (validateFrame fb tlen).status = 0x00000004#32) :
    HeaderGood fb tlen := by
  by_contra hh
  rw [status_of_not_headerGood hh] at h
  split at h <;> exact absurd h (by decide)

/-- A VALID response is that of an RC frame of 26 bytes that passes every check. -/
theorem status_valid_iff (fb : Memory) (tlen : Byte) :
    (validateFrame fb tlen).status = 0x00001601#32 ↔
      HeaderGood fb tlen ∧ CrcGood fb tlen ∧ readByte fb 2#6 = 0x16#8 ∧ readByte fb 1#6 = 24#8 := by
  constructor
  · intro h
    have hh := headerGood_of_status (.inl h)
    rw [status_of_headerGood hh] at h
    split_ifs at h with hc ht hf
    · exact ⟨hh, hc, ht, hf⟩
    all_goals exact absurd h (by decide)
  · rintro ⟨hh, hc, ht, hf⟩
    rw [status_of_headerGood hh, if_pos hc, if_pos ht, if_pos hf]

/-- The four responses of a DECODE. -/
theorem status_cases (fb : Memory) (tlen : Byte) :
    (validateFrame fb tlen).status = 0x00001601#32 ∨ (validateFrame fb tlen).status = 0x00000002#32 ∨
    (validateFrame fb tlen).status = 0x00000003#32 ∨ (validateFrame fb tlen).status = 0x00000004#32 := by
  by_cases hh : HeaderGood fb tlen
  · rw [status_of_headerGood hh]
    split_ifs <;> simp
  · rw [status_of_not_headerGood hh]
    split <;> simp

/-! ### What a DECODE reads (41_frame_decoder.md R102, R113) -/

section PresentBytes

variable {fb fb' : Memory} {tlen : Byte}
  (h : ∀ x : Addr, x.toNat < min tlen.toNat 64 → readByte fb x = readByte fb' x)
include h

theorem readByte_congr_of_present {k : Nat} (hk : k < min tlen.toNat 64) :
    readByte fb (BitVec.ofNat 6 k) = readByte fb' (BitVec.ofNat 6 k) :=
  h _ (by rwa [BitVec.toNat_ofNat, Nat.mod_eq_of_lt (by omega)])

theorem memRead_congr_of_present {a n : Nat} (hn : a + n ≤ min tlen.toNat 64) :
    memRead fb a n = memRead fb' a n :=
  memRead_congr fun _ hk => readByte_congr_of_present h (by omega)

/-- The header is judged on the bytes present alone: with fewer than two of them it is not good. -/
theorem headerGood_congr : HeaderGood fb tlen ↔ HeaderGood fb' tlen := by
  by_cases h2 : 2 ≤ tlen.toNat
  · have h0 : readByte fb 0#6 = readByte fb' 0#6 := readByte_congr_of_present h (by omega)
    have h1 : readByte fb 1#6 = readByte fb' 1#6 := readByte_congr_of_present h (by omega)
    rw [HeaderGood, HeaderGood, h0, h1]
  · exact iff_of_false (not_headerGood_of_tlen_lt (by omega)) (not_headerGood_of_tlen_lt (by omega))

/-- With a good header every byte the checksum step reads is present. -/
theorem crcGood_congr (hh : HeaderGood fb tlen) : CrcGood fb tlen ↔ CrcGood fb' tlen := by
  obtain ⟨hmin, hmax, -⟩ := tlen_bounds_of_headerGood hh
  have hcovered : memRead fb 2 (tlen.toNat - 3) = memRead fb' 2 (tlen.toNat - 3) :=
    memRead_congr_of_present h (by omega)
  rw [CrcGood, CrcGood, bytesFrom_eq_memRead, bytesFrom_eq_memRead, hcovered,
    readByte_congr_of_present h (by omega)]

/-- Two buffers that agree on the bytes present give one verdict. -/
theorem validateFrame_congr : validateFrame fb tlen = validateFrame fb' tlen := by
  have hcongr := headerGood_congr h
  by_cases hh : HeaderGood fb tlen
  · obtain ⟨hmin, hmax, -⟩ := tlen_bounds_of_headerGood hh
    have h1 : readByte fb 1#6 = readByte fb' 1#6 := readByte_congr_of_present h (by omega)
    have h2 : readByte fb 2#6 = readByte fb' 2#6 := readByte_congr_of_present h (by omega)
    rw [validateFrame_of_headerGood hh, validateFrame_of_headerGood (hcongr.1 hh), h1, h2]
    simp only [crcGood_congr h hh]
    by_cases hf : readByte fb' 1#6 = 24#8
    · obtain rfl := (frameLength_eq_iff (hcongr.1 hh)).1 hf
      have hpayload : memRead fb 3 22 = memRead fb' 3 22 := memRead_congr_of_present h (by decide)
      rw [hpayload]
    · rw [if_neg hf, if_neg hf]
  · rw [validateFrame_of_not_headerGood hh, validateFrame_of_not_headerGood (mt hcongr.2 hh)]
    by_cases h1 : 1 ≤ tlen.toNat
    · have h0 : readByte fb 0#6 = readByte fb' 0#6 := readByte_congr_of_present h (by omega)
      rw [h0]
    · rw [if_neg fun h => h1 h.1, if_neg fun h => h1 h.1]

end PresentBytes

/-! ### Packed values (42_channel_unpack.md R136) -/

theorem pack_length (v : Vector Chan 16) : (pack v).length = 22 := by
  simp [pack, Config.rcPayloadLen]

/-- Lanes read as a number, bit by bit. -/
theorem lanesNat_testBit (l : List Chan) (n : Nat) :
    (lanesNat l).testBit n = (l.getD (n / 11) 0#11).getLsbD (n % 11) := by
  induction l generalizing n with
  | nil => simp [lanesNat]
  | cons v r ih =>
    have hsum : lanesNat (v :: r) = 2 ^ 11 * lanesNat r + v.toNat := by
      rw [lanesNat, Nat.shiftLeft_eq, Config.chW]; omega
    rw [hsum, Nat.testBit_two_pow_mul_add _ v.isLt]
    by_cases hn : n < 11
    · rw [if_pos hn, Nat.div_eq_of_lt hn, Nat.mod_eq_of_lt hn]; rfl
    · obtain ⟨m, rfl⟩ : ∃ m, n = m + 11 := ⟨n - 11, by omega⟩
      rw [if_neg hn, Nat.add_sub_cancel, ih, Nat.add_mod_right, Nat.add_div_right m (by decide)]; rfl

/-- Bit `j` of packed byte `k` is bit `8 k + j` of the lanes' number. -/
theorem pack_getLsbD (v : Vector Chan 16) {k j : Nat} (hk : k < 22) (hj : j < 8) :
    ((pack v).getD k 0#8).getLsbD j = (lanesNat v.toList).testBit (8 * k + j) := by
  have hmask : 0xFF = 2 ^ 8 - 1 := rfl
  rw [List.getD_eq_getElem _ _ (by rwa [pack_length])]
  simp only [pack, List.getElem_map, List.getElem_range, BitVec.getLsbD_ofNat, hmask, Nat.testBit_and,
    Nat.testBit_shiftRight, Nat.testBit_two_pow_sub_one]
  simp [hj]

/-- Unpacking packed values gives the values back: the byte stream and the lanes are one stream of bits. -/
theorem unpack_pack (v : Vector Chan 16) : unpack (pack v) = v := by
  refine Vector.ext fun i hi => BitVec.eq_of_getLsbD_eq fun j hj => ?_
  have hbit := unpack_getLsbD (pack v) ⟨i, hi⟩ hj
  have hlane : (11 * i + j) / 11 = i ∧ (11 * i + j) % 11 = j := by omega
  rw [pack_getLsbD v (by dsimp only; omega) (Nat.mod_lt _ (by decide)), Nat.div_add_mod, lanesNat_testBit,
    hlane.1, hlane.2] at hbit
  simpa [hi] using hbit

/-! ### A frame built from values -/

theorem memRead_add (fb : Memory) (a m n : Nat) :
    memRead fb a (m + n) = memRead fb a m ++ memRead fb (a + m) n := by
  simp [memRead, List.range_add, Nat.add_assoc]

/-- A buffer that holds the frame built from 16 values (41_frame_decoder.md R100, 40_crc_engine.md R86). -/
theorem rcFrame_of_bytes {fb : Memory} {v : Vector Chan 16}
    (h : bytesFrom fb 0 26 = [0xC8#8, 0x18#8, 0x16#8] ++ pack v ++ [crc8 (0x16#8 :: pack v)]) :
    HeaderGood fb 26#8 ∧ CrcGood fb 26#8 ∧ readByte fb 2#6 = 0x16#8 ∧ memRead fb 3 22 = pack v := by
  have hsplit : bytesFrom fb 0 26 = memRead fb 0 3 ++ memRead fb 3 22 ++ memRead fb 25 1 := by
    rw [bytesFrom_eq_memRead, memRead_add fb 0 25 1, memRead_add fb 0 3 22]
  obtain ⟨hfront, hsum⟩ := List.append_inj (hsplit.symm.trans h) (by simp [memRead_length, pack_length])
  obtain ⟨hhead, hpayload⟩ := List.append_inj hfront (memRead_length ..)
  obtain ⟨h0, h1, h2⟩ : readByte fb 0#6 = 0xC8#8 ∧ readByte fb 1#6 = 0x18#8 ∧ readByte fb 2#6 = 0x16#8 := by
    simpa [memRead, List.range_succ] using hhead
  have hlast : readByte fb 25#6 = crc8 (0x16#8 :: pack v) := by
    simpa [memRead] using hsum
  refine ⟨⟨h0, ?_⟩, ?_, h2, hpayload⟩
  · rw [h1]
    decide
  · have hcovered : bytesFrom fb 2 23 = 0x16#8 :: pack v := by
      rw [bytesFrom_eq_memRead, memRead_add fb 2 1 22, hpayload, ← h2]
      rfl
    exact (congrArg crc8 hcovered).trans hlast.symm

/-! ### The statements -/

/-- Settles O39: without the address the header is not good; with it neither half of the validator finds an
address error. -/
theorem wrongAddressIsAddressError : Obligations.WrongAddressIsAddressError := by
  refine fun s tlen nowv now => ⟨fun h1 ha => exec_decode_of_reject (c := .addressError) ?_ nowv now, fun ha => ?_⟩
  · rw [validateFrame_of_not_headerGood fun hh => ha hh.1, if_pos ⟨h1, ha⟩]
  · obtain ⟨t, ht, -⟩ := exec_next_keeps_ports (.decode tlen nowv now) s
    refine ⟨t, _, ht, decode_respOut ht, ?_⟩
    by_cases hh : HeaderGood s.fb tlen
    · rw [status_of_headerGood hh]
      split_ifs <;> decide
    · rw [status_of_not_headerGood hh, if_neg fun hne => hne.2 ha]
      decide

/-- Settles O40: a bad length leaves the header not good, and only a good header gets past step 2. -/
theorem badLengthIsPayloadError : Obligations.BadLengthIsPayloadError := by
  refine fun s tlen nowv now =>
    ⟨fun _ ha hlen => exec_decode_of_reject (c := .payloadError) ?_ nowv now, fun t S ht hS hpast => ?_⟩
  · have hh : ¬HeaderGood s.fb tlen := by
      rintro ⟨-, hmin, hmax, heq⟩
      omega
    rw [validateFrame_of_not_headerGood hh, if_neg fun hne => hne.2 ha]
  · obtain rfl : (validateFrame s.fb tlen).status = S := by
      simpa using (decode_respOut ht).symm.trans hS
    exact tlen_bounds_of_headerGood (headerGood_of_status hpast)

/-- Settles O41. -/
theorem badChecksumIsPayloadError : Obligations.BadChecksumIsPayloadError := by
  refine fun s tlen nowv now hh hc => exec_decode_of_reject (c := .payloadError) ?_ nowv now
  rw [validateFrame_of_headerGood hh, if_neg hc]

/-- Settles O42. -/
theorem otherTypesAreUnsupported : Obligations.OtherTypesAreUnsupported := by
  refine fun s tlen nowv now hh hc ht => exec_decode_of_reject (c := .unsupportedType) ?_ nowv now
  rw [validateFrame_of_headerGood hh, if_pos hc, if_neg ht]

/-- Settles O43: 22 payload bytes are a frame length of 24, which step 2 holds to TLEN = 26. -/
theorem validNeedsTwentyTwoBytes : Obligations.ValidNeedsTwentyTwoBytes := by
  refine fun s tlen nowv now =>
    ⟨fun hh hc ht hpayload => exec_decode_of_reject (c := .payloadError) ?_ nowv now, fun t h hS => ?_⟩
  · have hf : readByte s.fb 1#6 ≠ 24#8 := fun hf => hpayload (by rw [hf]; rfl)
    rw [validateFrame_of_headerGood hh, if_pos hc, if_pos ht, if_neg hf]
  · have hvalid : (validateFrame s.fb tlen).status = 0x00001601#32 := by
      simpa using (decode_respOut h).symm.trans hS
    obtain ⟨hh, hc, ht, hf⟩ := (status_valid_iff s.fb tlen).1 hvalid
    exact ⟨hf, (frameLength_eq_iff hh).1 hf, ht, hh, hc⟩

/-- Settles O44: the frame is accepted, and an accepted frame's channels are the bits of its payload. -/
theorem validFrameCommitsChannelsAndTime : Obligations.ValidFrameCommitsChannelsAndTime :=
  fun _ nowv now hh hc ht => ⟨_, exec_decode_of_rcFrame hh hc ht nowv now,
    fun i _ hj => accept_getLsbD (validateFrame_of_rcFrame hh hc ht) i hj,
    rfl, rfl, rfl, rfl, rfl, rfl, rfl⟩

/-- Settles O45, by the verdict: a rejection only answers, and its code is never VALID's. -/
theorem failedDecodeWritesNothing : Obligations.FailedDecodeWritesNothing := by
  refine ⟨fun s t tlen nowv now h => ?_, fun s t first second h => by cases h; rfl⟩
  cases hv : validateFrame s.fb tlen with
  | reject c =>
    cases (exec_decode_of_reject hv nowv now).symm.trans h
    have hcode : (statusWord c .none).extractLsb' 0 4 ≠ 0x1#4 ∧
        (statusWord c .none).extractLsb' 8 8 = 0x00#8 := by
      have hstatus := status_cases s.fb tlen
      rw [hv, Verdict.status] at hstatus
      obtain hS | hS | hS | hS := hstatus
      · exact absurd hS (statusWord_none_ne_valid c)
      all_goals rw [hS]; decide
    exact ⟨rfl, statusWord c .none, rfl, fun hok => absurd hok hcode.1, fun _ => ⟨hcode.2, rfl⟩⟩
  | accept v =>
    cases (exec_decode_of_accept hv nowv now).symm.trans h
    exact ⟨rfl, statusWord .valid .rcChannelsPacked, rfl, by decide, fun hne => absurd rfl hne⟩

/-- Settles O46: the verdict is one of the bytes present, and the response and the channels are the verdict's. -/
theorem decodeReadsOnlyPresentBytes : Obligations.DecodeReadsOnlyPresentBytes := by
  refine ⟨fun s s' t t' tlen nowv nowv' now now' hagree h h' => ?_, fun s nowv now => ?_,
    fun s nowv now ha => ?_⟩
  · have hresp := decode_respOut h
    have hresp' := decode_respOut h'
    have hsame := validateFrame_congr hagree
    refine ⟨_, hresp, by rw [hresp', hsame], fun hS => ?_⟩
    cases hv : validateFrame s.fb tlen with
    | reject c =>
      rw [hv] at hS
      exact absurd hS (statusWord_none_ne_valid c)
    | accept v =>
      cases (exec_decode_of_accept hv nowv now).symm.trans h
      cases (exec_decode_of_accept (hsame.symm.trans hv) nowv' now').symm.trans h'
      exact ⟨rfl, rfl, rfl⟩
  · refine exec_decode_of_reject (c := .payloadError) ?_ nowv now
    rw [validateFrame_of_not_headerGood (not_headerGood_of_tlen_lt (by decide)), if_neg (by simp)]
  · refine exec_decode_of_reject (c := .payloadError) ?_ nowv now
    rw [validateFrame_of_not_headerGood (not_headerGood_of_tlen_lt (by decide)), if_neg fun h => h.2 ha]

/-- Settles O47: outside 7 to 64 bytes no header is good. -/
theorem outcomesByTotalLength : Obligations.OutcomesByTotalLength := by
  refine fun s t tlen nowv now h =>
    ⟨_, decode_respOut h, fun h0 => ?_, fun hout => ?_, fun _ => status_cases s.fb tlen, fun hS => ?_⟩
  · rw [status_of_not_headerGood (not_headerGood_of_tlen_lt (by omega)), if_neg (by omega)]
  · have hh : ¬HeaderGood s.fb tlen := fun hh => by
      obtain ⟨hmin, hmax, -⟩ := tlen_bounds_of_headerGood hh
      omega
    have h1 : 1 ≤ tlen.toNat := by omega
    simp only [status_of_not_headerGood hh, h1, true_and]
  · obtain ⟨hh, -, -, hf⟩ := (status_valid_iff s.fb tlen).1 hS
    rw [(frameLength_eq_iff hh).1 hf]
    rfl

/-- Settles O54: the frame passes every check, and its payload unpacks to the values packed. -/
theorem packedFrameDecodesToItsValues : Obligations.PackedFrameDecodesToItsValues := by
  intro s v nowv now hbytes
  obtain ⟨hh, hc, ht, hpayload⟩ := rcFrame_of_bytes hbytes
  rw [exec_decode_of_rcFrame hh hc ht, hpayload, unpack_pack]

end Sys2Proof.Machine
end

section
/-! PROOFS. The statements of 42_channel_unpack.md: the channel accessors (R134, R135), the unpacker's bit
stream (R130) and the two forms equal to it (R131, R132), and the round trip with pack (R136). -/

namespace Sys2Proof.Machine

open Sys2Proof.Claims

/-! ### The unpacked lanes and the bits of a payload byte -/

theorem unpack_getElem (p : List Byte) {i : Nat} (hi : i < 16) :
    (unpack p)[i] = lane (packedNat p) i := by
  simp [unpack]

/-- The unpacked channels in index order are the lanes 0 to 15 (42_channel_unpack.md R137). -/
theorem unpack_toList (p : List Byte) : (unpack p).toList = (List.range' 0 16).map (lane (packedNat p)) :=
  List.ext_getElem (by simp) fun i h _ => by simp [unpack_getElem]

/-- A payload byte is eight bits of the stream (42_channel_unpack.md R130). -/
theorem byteAt_testBit (p : List Byte) (k j : Nat) :
    (byteAt p k).testBit j = (decide (j < 8) && (packedNat p).testBit (8 * k + j)) := by
  rw [byteAt, BitVec.testBit_toNat]
  by_cases hj : j < 8
  · have hpos : (8 * k + j) / 8 = k ∧ (8 * k + j) % 8 = j := by omega
    rw [packedNat_testBit, hpos.1, hpos.2]
    simp [hj]
  · rw [BitVec.getLsbD_of_ge _ _ (by omega)]
    simp [hj]

/-! ### The cursor form (42_channel_unpack.md R132) -/

/-- After `m` turns the inner loop holds the `8 * m` stream bits from byte `byte` on. -/
theorem gatherTurns_testBit (p : List Byte) (byte m n : Nat) :
    ((List.range m).foldl (fun acc k => acc ||| (byteAt p (byte + k) <<< (8 * k))) 0).testBit n =
      (decide (n < 8 * m) && (packedNat p).testBit (8 * byte + n)) := by
  induction m with
  | zero => simp
  | succ m ih =>
    rw [List.range_succ, List.foldl_append, List.foldl_cons, List.foldl_nil, Nat.testBit_or, ih,
      Nat.testBit_shiftLeft, byteAt_testBit]
    by_cases hn : 8 * m ≤ n
    · have hpos : 8 * (byte + m) + (n - 8 * m) = 8 * byte + n := by omega
      have hlt : n - 8 * m < 8 ↔ n < 8 * (m + 1) := by omega
      simp [hpos, hlt, hn]
    · have hlt : n < 8 * m ∧ n < 8 * (m + 1) := by omega
      simp [hn, hlt]

/-- The bytes gathered at a cursor on stream bit `11 i` hold lane `i`, from the cursor's bit offset on. -/
theorem gatherField_lane (p : List Byte) {byte bit i : Nat} (hcur : 8 * byte + bit = 11 * i) :
    (gatherField p byte bit 11 >>> bit) &&& 0x7FF = (packedNat p >>> (11 * i)) &&& 0x7FF := by
  have hmask : 0x7FF = 2 ^ 11 - 1 := rfl
  refine Nat.eq_of_testBit_eq fun n => ?_
  simp only [hmask, gatherField, Nat.testBit_and, Nat.testBit_shiftRight, Nat.testBit_two_pow_sub_one,
    gatherTurns_testBit, ← hcur, Nat.add_assoc]
  by_cases hn : n < 11
  · have hheld : bit + n < 8 * ((bit + (11 + 7)) / 8) := by omega
    simp [hheld]
  · simp [hn]

theorem lane_eq_gatherField (p : List Byte) {byte bit i : Nat} (hcur : 8 * byte + bit = 11 * i) :
    lane (packedNat p) i = BitVec.ofNat 11 ((gatherField p byte bit 11 >>> bit) &&& 0x7FF) :=
  congrArg (BitVec.ofNat 11) (gatherField_lane p hcur).symm

/-- A lane's number is its eleven stream bits. -/
theorem lane_toNat (P i : Nat) : (lane P i).toNat = (P >>> (11 * i)) &&& 0x7FF := by
  rw [lane, BitVec.toNat_ofNat]
  exact Nat.mod_eq_of_lt (Nat.lt_succ_of_le Nat.and_le_right)

/-- The outer loop from a cursor on stream bit `11 i` gives the next `n` lanes, since each turn moves the
cursor by 11 bits. -/
theorem unpackCursor_eq_lanes (p : List Byte) (n : Nat) {byte bit i : Nat}
    (hcur : 8 * byte + bit = 11 * i) (hbit : bit < 8) :
    unpackCursor p 11 n byte bit = (List.range' i n).map fun i => (lane (packedNat p) i).toNat := by
  induction n generalizing byte bit i with
  | zero => rfl
  | succ n ih =>
    have hlane : (gatherField p byte bit 11 >>> bit) &&& ((1 <<< 11) - 1) = (lane (packedNat p) i).toNat :=
      (gatherField_lane p hcur).trans (lane_toNat ..).symm
    simp only [unpackCursor, hlane, List.range'_succ, List.map_cons]
    split <;> rw [ih (i := i + 1) (by omega) (by omega)]

/-! ### The unrolled form (42_channel_unpack.md R131) -/

/-- A lane at a bit offset up to 5 is read from two bytes. -/
theorem lane_eq_twoBytes (p : List Byte) {k o i : Nat} (hcur : 8 * k + o = 11 * i) (ho : o ≤ 5) :
    lane (packedNat p) i =
      BitVec.ofNat 11 (((byteAt p k >>> o) ||| (byteAt p (k + 1) <<< (8 - o))) &&& 0x7FF) := by
  have hturns : (o + 11 + 7) / 8 = 2 := by omega
  rw [lane_eq_gatherField p hcur, gatherField, hturns]
  simp [List.range_succ, Nat.shiftRight_or_distrib, Nat.shiftLeft_sub _ (show o ≤ 8 by omega)]

/-- A lane at bit offset 6 or 7 is read from three bytes. -/
theorem lane_eq_threeBytes (p : List Byte) {k o i : Nat} (hcur : 8 * k + o = 11 * i) (ho : 6 ≤ o)
    (ho' : o < 8) :
    lane (packedNat p) i = BitVec.ofNat 11 (((byteAt p k >>> o) ||| (byteAt p (k + 1) <<< (8 - o)) |||
      (byteAt p (k + 2) <<< (16 - o))) &&& 0x7FF) := by
  have hturns : (o + 11 + 7) / 8 = 3 := by omega
  rw [lane_eq_gatherField p hcur, gatherField, hturns]
  simp [List.range_succ, Nat.shiftRight_or_distrib, Nat.shiftLeft_sub _ (show o ≤ 8 by omega),
    Nat.shiftLeft_sub _ (show o ≤ 16 by omega)]

/-- Channels 2, 5, 10 and 13 read three bytes and the others two, each at its fixed offset. -/
theorem unpackUnrolled_getElem (p : List Byte) {i : Nat} (hi : i < 16) :
    (unpackUnrolled p)[i] = lane (packedNat p) i :=
  have hcur : 8 * (11 * i / 8) + 11 * i % 8 = 11 * i := Nat.div_add_mod ..
  match i, hi, hcur with
  | 0, _, h | 1, _, h | 3, _, h | 4, _, h | 6, _, h | 7, _, h | 8, _, h | 9, _, h | 11, _, h | 12, _, h
  | 14, _, h | 15, _, h => (lane_eq_twoBytes p h (by decide)).symm
  | 2, _, h | 5, _, h | 10, _, h | 13, _, h => (lane_eq_threeBytes p h (by decide) (by decide)).symm
  | n + 16, h, _ => absurd h (by omega)

/-! ### Packing unpacked values (42_channel_unpack.md R136) -/

/-- The lanes of a payload, read as one number again, are the payload's bit stream. -/
theorem lanesNat_unpack_testBit (p : List Byte) {n : Nat} (hn : n < 176) :
    (lanesNat (unpack p).toList).testBit n = (packedNat p).testBit n := by
  have hi : n / 11 < 16 := by omega
  have hlane : (unpack p).toList.getD (n / 11) 0#11 = lane (packedNat p) (n / 11) := by
    rw [List.getD_eq_getElem _ _ (by simpa using hi), Vector.getElem_toList, unpack_getElem]
  rw [lanesNat_testBit, hlane, lane_getLsbD _ _ (Nat.mod_lt _ (by decide)), Nat.div_add_mod]

/-- Packing unpacked values gives the payload back: 16 channels of 11 bits are 22 bytes of 8. -/
theorem pack_unpack {p : List Byte} (hp : p.length = 22) : pack (unpack p) = p := by
  refine List.ext_getElem ((pack_length _).trans hp.symm) fun k hk hkp => ?_
  rw [pack_length] at hk
  refine BitVec.eq_of_getLsbD_eq fun j hj => ?_
  have hpos : (8 * k + j) / 8 = k ∧ (8 * k + j) % 8 = j := by omega
  rw [← List.getD_eq_getElem _ 0#8, pack_getLsbD _ hk hj, lanesNat_unpack_testBit _ (by omega),
    packedNat_testBit, hpos.1, hpos.2, List.getD_eq_getElem _ _ hkp]

/-! ### The statements -/

/-- Settles O29: the decoder's row for the opcode, and the two answers of the meaning. -/
theorem getchAnswersOneChannel : Obligations.GetchAnswersOneChannel := by
  refine ⟨oneWordCommand_of_decodeOneWord (by decide) fun w ho => ?_, fun s index => ?_⟩
  · rw [decodeOneWord_getch ho]
    simp only [selects_getch_iff, ho, true_and]
  · obtain ⟨hin, h⟩ | ⟨hout, h⟩ := execGetch_cases index s
    · exact ⟨fun _ => h, fun hout => absurd hin (by omega)⟩
    · exact ⟨fun hin => absurd hin (by omega), fun _ => h⟩

/-- Settles O30: the decoder's row for the opcode, and the channels' list written out. -/
theorem getallAnswersOneSnapshot : Obligations.GetallAnswersOneSnapshot := by
  refine ⟨oneWordCommand_of_decodeOneWord (by decide) fun w ho => ?_, fun s => ?_⟩
  · rw [decodeOneWord_getall ho]
    simp only [selects_getall_iff, ho, true_and]
  · have hch : s.ch.toList = List.ofFn fun i : Fin 16 => s.ch[i] :=
      (congrArg Vector.toList Vector.ofFn_getElem).symm.trans Vector.toList_ofFn
    exact congrArg (fun l : List Chan => respond .ok .none (l.map fun v => zext32 v) s) hch

/-- Settles O50: a channel is a lane of the payload's number, whose bits are those of its bytes. -/
theorem unpackFollowsTheBitStream : Obligations.UnpackFollowsTheBitStream :=
  fun p i _ _ hj => unpack_getLsbD p i hj

/-- Settles O51, lane by lane: each row of R131's table is the gathered field at that row's cursor. -/
theorem unrolledFormEqualsUnpack : Obligations.UnrolledFormEqualsUnpack := fun p _ =>
  Vector.ext fun _ hi => (unpackUnrolled_getElem p hi).trans (unpack_getElem p hi).symm

/-- Settles O52: the cursor starts on stream bit 0 and gives the 16 lanes in order. -/
theorem cursorFormEqualsUnpack : Obligations.CursorFormEqualsUnpack := by
  intro p _
  rw [unpack_toList, List.map_map]
  exact unpackCursor_eq_lanes p 16 (i := 0) rfl (by decide)

/-- Settles O53: the bytes and the lanes are one stream of 176 bits. -/
theorem packUnpackRoundTrip : Obligations.PackUnpackRoundTrip :=
  ⟨fun v => ⟨pack_length v, unpack_pack v⟩, fun _ => pack_unpack⟩

end Sys2Proof.Machine
end

section
/-! PROOFS. The statements of 43_host_control.md: the sequencer's step on one word (R150), placed words
(log 8), and INIT, WRBUF, GETTS and GETBAUD (R151 to R154). -/

namespace Sys2Proof.Machine

open Sys2Proof.Claims

/-! ### The step on one word, with the must-be-zero check in it (43_host_control.md R150) -/

/-- With nothing held, a one-word command runs where its must-be-zero check passes, and answers ILLEGAL_CMD
where it fails. -/
theorem step_checked_oneWord {s : State} {w : Word} {rest : List PortInput} {op : BitVec 4} {passes : Prop}
    [Decidable passes] {i : Instr} (hp : s.pend = false) (hin : s.input = .word w :: rest)
    (hop : op ≠ 0x4#4) (ho : opc w = op)
    (hd : decodeOneWord w = if passes then i else .illegal w none) :
    step s = if passes then exec i { s with input := rest }
      else .next { s with input := rest, respOut := s.respOut ++ [0x00000007#32] } := by
  rw [step_oneWord hp hin (isTwoWord_eq_false ho hop), hd]
  split <;> rfl

/-- With nothing held, a word of an opcode with no row answers ILLEGAL_CMD. -/
theorem step_otherOpcode {s : State} {w : Word} {rest : List PortInput} (hp : s.pend = false)
    (hin : s.input = .word w :: rest) (ho : opc w = 0x0#4 ∨ 9 ≤ (opc w).toNat) :
    step s = .next { s with input := rest, respOut := s.respOut ++ [0x00000007#32] } := by
  have htwo : isTwoWord w = false := isTwoWord_eq_false rfl fun h => by simp [h] at ho
  rw [step_oneWord hp hin htwo, decodeOneWord_otherOpcode ho]
  rfl

/-- The held word completes as DECODE where its own must-be-zero bits are 0. -/
theorem step_held_legal {s : State} {w : Word} {rest : List PortInput} (hp : s.pend = true)
    (hin : s.input = .word w :: rest) (hz : s.pendW0.extractLsb' 9 19 = 0#19) :
    step s = exec (.decode (s.pendW0.extractLsb' 0 8) (s.pendW0.getLsbD 8) w)
      { s with input := rest, pend := false, pendW0 := 0#32 } := by
  rw [step_secondWord hp hin, decodeTwoWords, if_pos hz]
  rfl

/-- The held word answers ILLEGAL_CMD where one of its must-be-zero bits is set. -/
theorem step_held_illegal {s : State} {w : Word} {rest : List PortInput} (hp : s.pend = true)
    (hin : s.input = .word w :: rest) (hz : s.pendW0.extractLsb' 9 19 ≠ 0#19) :
    step s = .next { s with
      input := rest, pend := false, pendW0 := 0#32, respOut := s.respOut ++ [0x00000007#32] } := by
  rw [step_secondWord hp hin, decodeTwoWords, if_neg hz]
  rfl

/-- An instruction puts something on the response port and leaves the command port alone. -/
theorem exec_responds (i : Instr) (s : State) :
    ∃ t, exec i s = .next t ∧ t.input = s.input ∧ t.respOut ≠ s.respOut := by
  obtain ⟨t, ht, -, -, hin⟩ := exec_next_keeps_ports i s
  obtain ⟨_, _, hresp, -⟩ := everyCommandAnswersOnce i s t ht
  exact ⟨t, ht, hin, by simp [hresp]⟩

/-- Every word is taken, and answered at once unless it is held as a first word. -/
theorem step_word_responds {s : State} {w : Word} {rest : List PortInput} (hin : s.input = .word w :: rest) :
    ∃ u, step s = .next u ∧ u.input = rest ∧
      (u.respOut = s.respOut ↔ s.pend = false ∧ opc w = 0x4#4) := by
  cases hp : s.pend with
  | true =>
    obtain ⟨u, hu, hrest, hresp⟩ :=
      exec_responds (decodeTwoWords s.pendW0 w) (releaseFirstWord (setInput rest s))
    exact ⟨u, (step_secondWord hp hin).trans hu, hrest, by simpa using hresp⟩
  | false =>
    cases hw : isTwoWord w with
    | true =>
      exact ⟨_, step_firstWord hp hin hw, rfl, fun _ => ⟨rfl, (isTwoWord_iff w).1 hw⟩, fun _ => rfl⟩
    | false =>
      have ho : opc w ≠ 0x4#4 := fun ho => Bool.noConfusion (hw.symm.trans ((isTwoWord_iff w).2 ho))
      obtain ⟨u, hu, hrest, hresp⟩ := exec_responds (decodeOneWord w) (setInput rest s)
      exact ⟨u, (step_oneWord hp hin hw).trans hu, hrest, by simpa [ho] using hresp⟩

/-! ### Decoded words are what the step runs -/

theorem takenAs_singleton_iff {i : Instr} {w : Word} :
    TakenAs i [w] ↔ isTwoWord w = false ∧ decodeOneWord w = i := by
  simp [TakenAs]

theorem takenAs_pair_iff {i : Instr} {w0 w1 : Word} :
    TakenAs i [w0, w1] ↔ isTwoWord w0 = true ∧ decodeTwoWords w0 w1 = i := by
  simp [TakenAs]

/-- A stream with no words after its first command is the words of that command. -/
theorem decode_eq_command_nil_iff {ws : List Word} {i : Instr} :
    decode ws = .command i [] ↔ TakenAs i ws := by
  simp [decode_eq_command_iff]

/-- The step after placing one command's words (log 8): with the first word of two held, the second completes
it; a single word is taken with nothing held. -/
theorem step_placeWords {w0 w1 : Word} {i : Instr} {rest : List Word}
    (h : decode [w0, w1] = .command i rest) (s : State) :
    step (placeWords w0 w1 s) = exec i (releaseFirstWord s) := by
  cases hw : isTwoWord w0 with
  | true =>
    cases (decode_twoWords hw w1 []).symm.trans h
    rw [placeWords, if_pos hw, step_secondWord rfl rfl]
    rfl
  | false =>
    cases (decode_oneWord hw [w1]).symm.trans h
    rw [placeWords, if_neg (by simp [hw]), step_oneWord rfl rfl hw]
    rfl

/-! ### A row's mask is its opcode and its must-be-zero check (30_encoding.md R64) -/

/-- Where a row's mask selects the words of its opcode that pass a check, and decoding makes that check, the
sequencer takes its words so. -/
theorem oneWordCommand_of_check {op : BitVec 4} {mask pattern : Word} {passes : Word → Prop}
    [DecidablePred passes] {run : Word → Instr} (hop : op ≠ 0x4#4)
    (hsel : ∀ w, w &&& mask = pattern ↔ opc w = op ∧ passes w)
    (hd : ∀ {w}, opc w = op → decodeOneWord w = if passes w then run w else .illegal w none) :
    OneWordCommand op mask pattern run :=
  oneWordCommand_of_decodeOneWord hop fun w ho => by
    rw [hd ho]
    simp only [hsel, ho, true_and]

/-! ### The statements -/

/-- Settles O7: the two cases of a held word, then R150's opcode cases. -/
theorem sequencerTakesOneWord : Obligations.SequencerTakesOneWord := by
  intro s w rest hin
  refine ⟨fun hp => step_held_illegal hp hin, fun hp => step_held_legal hp hin, fun hp =>
    ⟨fun ho => ?init, fun ho => ?wrbuf, fun ho => ?crc, fun ho => ?decode, fun ho => ?getch, fun ho => ?getall,
      fun ho => ?getts, fun ho => ?getbaud, step_otherOpcode hp hin⟩, step_word_responds hin⟩
  case init => exact step_checked_oneWord hp hin (by decide) ho (decodeOneWord_init ho)
  case wrbuf => exact step_checked_oneWord hp hin (by decide) ho (decodeOneWord_wrbuf ho)
  case crc => exact step_checked_oneWord hp hin (by decide) ho (decodeOneWord_crc ho)
  case decode => exact step_firstWord hp hin ((isTwoWord_iff w).2 ho)
  case getch => exact step_checked_oneWord hp hin (by decide) ho (decodeOneWord_getch ho)
  case getall => exact step_checked_oneWord hp hin (by decide) ho (decodeOneWord_getall ho)
  case getts => exact step_checked_oneWord hp hin (by decide) ho (decodeOneWord_getts ho)
  case getbaud => exact step_checked_oneWord hp hin (by decide) ho (decodeOneWord_getbaud ho)

/-- Settles O16: the table's words are placed as one command's words. -/
theorem placedWordsRunNext : Obligations.PlacedWordsRunNext := by
  intro s nbits w i h
  unfold decodeTableWord at h
  split at h
  next hdec =>
    cases h
    exact step_placeWords hdec s
  next => cases h

/-- Settles O24: the decoder's row for the opcode, and INIT's meaning field by field. -/
theorem initConstructsTheInstance : Obligations.InitConstructsTheInstance :=
  ⟨oneWordCommand_of_check (by decide) selects_init_iff decodeOneWord_init,
    fun _ => ⟨_, rfl, by simp, rfl, rfl, rfl, rfl, rfl, rfl, rfl⟩⟩

/-- Settles O26: the decoder's row for the opcode, and the laws of a byte written. -/
theorem wrbufWritesOneByte : Obligations.WrbufWritesOneByte :=
  ⟨oneWordCommand_of_check (by decide) selects_wrbuf_iff decodeOneWord_wrbuf, fun s idx data =>
    ⟨_, rfl, readByte_writeByte_same s.fb idx data, fun _ h => readByte_writeByte_ne s.fb data h, rfl⟩⟩

/-- Settles O27: the decoder's row for the opcode, and the valid bit as a word, at both its values. -/
theorem gettsAnswersTheTimestamp : Obligations.GettsAnswersTheTimestamp := by
  refine ⟨oneWordCommand_of_check (by decide) selects_getts_iff decodeOneWord_getts, fun s => ?_⟩
  have hbit : ∀ b, zext32 (bit1 b) = if b then 0x00000001#32 else 0x00000000#32 := by decide
  rw [← hbit]
  rfl

/-- Settles O28: the decoder's row for the opcode, and the constant. -/
theorem getbaudAnswersTheConstant : Obligations.GetbaudAnswersTheConstant :=
  ⟨oneWordCommand_of_check (by decide) selects_getbaud_iff decodeOneWord_getbaud, fun _ => rfl⟩

/-- Settles O8: the decoded words are taken as the instruction, and the sequencer takes them so. -/
theorem stepRunsDecodedInstruction : Obligations.StepRunsDecodedInstruction := by
  refine fun s w rest i hin => ⟨fun hp hdec => ?_, fun hp _ hdec => ?_⟩
  · obtain ⟨hw, rfl⟩ := takenAs_singleton_iff.1 (decode_eq_command_nil_iff.1 hdec)
    exact step_oneWord hp hin hw
  · obtain ⟨-, rfl⟩ := takenAs_pair_iff.1 (decode_eq_command_nil_iff.1 hdec)
    exact step_secondWord hp hin

/-- Settles O10: the step's first case. -/
theorem nothingArrivedNothingChanges : Obligations.NothingArrivedNothingChanges := fun s hin => by
  rw [step, hin]

end Sys2Proof.Machine
end

section
/-! PROOFS. The statements of 60_exceptions.md: no instruction, step or run has a fault or refused outcome
(R170), and a DECODE is answered by the first error cause in the order of priority (R172). -/

namespace Sys2Proof.Machine

open Sys2Proof.Claims

/-! ### Every step and every run answers a next state (R170) -/

theorem exec_answers_next (i : Instr) (s : State) : ∃ t, exec i s = .next t := by
  obtain ⟨t, ht, -⟩ := exec_next_keeps_ports i s
  exact ⟨t, ht⟩

/-- Idle, reset and holding a first word answer outright; the other steps run an instruction. -/
theorem step_answers_next (s : State) : ∃ t, step s = .next t := by
  obtain ⟨-, hs⟩ | ⟨rest, -, hs⟩ | ⟨w, rest, -, -, hs⟩ | ⟨w, rest, -, -, -, hs⟩ | ⟨w, rest, -, -, -, hs⟩ :=
    step_cases s
  · exact ⟨_, hs⟩
  · exact ⟨_, hs⟩
  · rw [hs]
    exact exec_answers_next ..
  · exact ⟨_, hs⟩
  · rw [hs]
    exact exec_answers_next ..

theorem run_answers_next (n : Nat) (s : State) : ∃ t, Sys2Proof.core.run n s = .next t := by
  induction n generalizing s with
  | zero => exact ⟨s, run_zero s⟩
  | succ n ih =>
    obtain ⟨u, hu⟩ := step_answers_next s
    obtain ⟨t, ht⟩ := ih u
    exact ⟨t, (run_succ n hu).trans ht⟩

/-! ### The order of a DECODE's checks (R172) -/

/-- The validator's status word is that of the first cause of R172's items 2 to 8 that holds. A good header
rules out items 2 to 5; one that is not good is caught by one of them. -/
theorem status_of_first_failing_check (fb : Memory) (tlen : Byte) :
    (validateFrame fb tlen).status =
      if tlen = 0#8 then 0x00000003#32
      else if readByte fb 0#6 ≠ 0xC8#8 then 0x00000002#32
      else if tlen = 1#8 then 0x00000003#32
      else if ¬HeaderGood fb tlen then 0x00000003#32
      else if ¬CrcGood fb tlen then 0x00000003#32
      else if readByte fb 2#6 ≠ 0x16#8 then 0x00000004#32
      else if readByte fb 1#6 ≠ 24#8 then 0x00000003#32
      else 0x00001601#32 := by
  by_cases hh : HeaderGood fb tlen
  · have hmin := (tlen_bounds_of_headerGood hh).1
    have h0 : tlen ≠ 0#8 := by rintro rfl; exact absurd hmin (by decide)
    have h1 : tlen ≠ 1#8 := by rintro rfl; exact absurd hmin (by decide)
    rw [status_of_headerGood hh, if_neg h0, if_neg (not_not.2 hh.1), if_neg h1, if_neg (not_not.2 hh)]
    simp only [ne_eq, ite_not]
  · rw [status_of_not_headerGood hh, if_pos hh, ite_self]
    by_cases h0 : tlen = 0#8
    · rw [if_pos h0, if_neg (by simp [h0])]
    · have hpos : 1 ≤ tlen.toNat := by
        rw [Nat.one_le_iff_ne_zero]
        exact fun h => h0 (BitVec.eq_of_toNat_eq h)
      simp only [h0, hpos, true_and, if_false]

/-! ### The statements -/

/-- Settles O9: every instruction answers a next state, so every step does, and a run by induction on its
steps. -/
theorem neverFaultsNeverHalts : Obligations.NeverFaultsNeverHalts :=
  ⟨exec_answers_next, run_answers_next⟩

/-- Settles O48: the held word's must-be-zero bits decide whether the validator is asked, and its status word
follows the order of the other checks. -/
theorem firstFailingCheckAnswers : Obligations.FirstFailingCheckAnswers := by
  intro s now rest hp hin
  by_cases hz : s.pendW0.extractLsb' 9 19 = 0#19
  · rw [step_held_legal hp hin hz]
    obtain ⟨t, ht⟩ := exec_answers_next (.decode (s.pendW0.extractLsb' 0 8) (s.pendW0.getLsbD 8) now)
      { s with input := rest, pend := false, pendW0 := 0#32 }
    refine ⟨t, ht, ?_⟩
    rw [decode_respOut ht, status_of_first_failing_check, if_neg (not_not.2 hz)]
  · exact ⟨_, step_held_illegal hp hin hz, by rw [if_pos hz]⟩

end Sys2Proof.Machine
end

section
/-! PROOFS. The statements of 70_reset_and_hazards.md: reset (R190), INIT against reset (R191), and the word
after a DECODE first word (R193). -/

namespace Sys2Proof.Machine

/-- A reset at the head of the command port is taken whatever the rest of the state is. -/
theorem step_reset {s : State} {rest : List PortInput} (hin : s.input = .reset :: rest) :
    step s = .next (takeReset rest) := by
  rw [step, hin]

/-- INIT gives the reset state but for the frame buffer, the held word, the command port, and the answer put
on the response port (R191, 43_host_control.md R151). -/
theorem exec_init_eq_reset_with (s : State) :
    exec .init s = .next { State.reset with
      fb := s.fb, pend := s.pend, pendW0 := s.pendW0, input := s.input,
      respOut := s.respOut ++ [0x00000000#32] } := rfl

/-! ### The statements -/

/-- Settles O13: the first word is held, and the held word completes with the next one by its own
must-be-zero bits. -/
theorem wordAfterDecodeIsTheTime : Obligations.WordAfterDecodeIsTheTime := by
  intro s w0 w1 rest hp hin ho
  refine ⟨_, step_firstWord hp hin ((isTwoWord_iff w0).2 ho), rfl, fun hz => ?legal, fun hz => ?illegal⟩
  case legal => exact step_held_legal rfl rfl hz
  case illegal => exact step_held_illegal rfl rfl hz

/-- Settles O11: the step takes the reset, whose state is the reset state with what was sent after it. -/
theorem resetPutsEveryValue : Obligations.ResetPutsEveryValue := fun _ rest hin =>
  ⟨takeReset rest, step_reset hin, by simp, takeReset_lastTsValid rest, takeReset_lastTs rest, readByte_nil,
    takeReset_pend rest, takeReset_pendW0 rest, takeReset_input rest, takeReset_respOut rest, rfl⟩

/-- Settles O25: with nothing held, the fields of the held word are at their reset values too. -/
theorem initIsResetButForTheBuffer : Obligations.InitIsResetButForTheBuffer := by
  intro s ⟨_, hreleased⟩ hp
  rw [exec_init_eq_reset_with, hp, hreleased hp]
  rfl

end Sys2Proof.Machine
end
